-- ==== Sys2Proof/Word.lean ====
section
/-! DEFINITION. The value types of the engine: bytes, words, 16-byte blocks, the phase names,
the round index and the control word (spec/00_scope.md R6, R7; spec/10_state.md R14, R15;
spec/30_encoding.md R50). -/

namespace Sys2Proof

/-- R6: "an 8-bit unsigned value, 0–255"; bit 7 is the most significant. -/
abbrev Byte := BitVec 8

/-- R7: a Word is a 4-byte sequence `w[0..3]`; `b0` is its first byte (R36). It is never a 32-bit
integer. -/
structure Word where
  b0 : Byte
  b1 : Byte
  b2 : Byte
  b3 : Byte
deriving DecidableEq, Repr, Inhabited

/-- R7: a 16-byte sequence `a[0..15]`, held as its four groups of four consecutive bytes: word `j`
is `a[4j..4j+3]` (R36), which is column `j` of the State (R33). Log entry 7. -/
structure Block where
  w0 : Word
  w1 : Word
  w2 : Word
  w3 : Word
deriving DecidableEq, Repr, Inhabited

/-- The same byte function on each of the four bytes of a word. -/
def Word.map (f : Byte → Byte) (w : Word) : Word :=
  ⟨f w.b0, f w.b1, f w.b2, f w.b3⟩

/-- The word of four bytes 0x00. -/
def Word.zero : Word := ⟨0x00, 0x00, 0x00, 0x00⟩

/-- The block of sixteen bytes 0x00 (R22). -/
def Block.zero : Block := ⟨Word.zero, Word.zero, Word.zero, Word.zero⟩

/-- R14: what the 3-bit register `PH` can hold. The first six are the phases; `reserved6` and
`reserved7` stand for the codes 110 and 111, which "are not values of `PH`" after a reset but which
the register may hold before the first one (R23). Log entry 2. -/
inductive Phase where
  | idle
  | keyexp
  | init
  | round
  | final
  | done
  | reserved6
  | reserved7
deriving DecidableEq, Repr, Inhabited

/-- R15: the round counter is 4 bits, unsigned. -/
abbrev RoundIndex := BitVec 4

/-- R50: the control word `CW` has 9 bits. -/
abbrev ControlWord := BitVec 9

end Sys2Proof
end

