-- ==== Sys2Proof/Config.lean ====
section
/-! DEFINITION. The parameters of the block (spec/00_scope.md R5), the values of the input ports at
one clock edge (spec/10_state.md R17), and what the spec leaves to the outside: which values the host
puts on the ports, and the number of physical S-box read ports. -/

namespace Sys2Proof

/-- R17: the input ports as sampled at one rising edge of `clk`. `clk` itself is the step. -/
structure PortSample where
  rst : Bool
  start : Bool
  keyIn : BitVec 128
  blockIn : BitVec 128
deriving DecidableEq, Repr, Inhabited

/-- R5: KEY_BYTES. -/
def Config.keyBytes : Nat := 16

/-- R5: BLOCK_BYTES. -/
def Config.blockBytes : Nat := 16

/-- R5: NR, the number of rounds. -/
def Config.numRounds : Nat := 10

/-- R5: LATENCY_EDGES, from the accepting edge to `done`, the accepting edge counted. -/
def Config.latencyEdges : Nat := 22

/-- R5: GF_REDUCE, the byte that `xtime` XORs in when a bit is shifted out. -/
def Config.gfReduce : Byte := 0x1B

/-- R5: RCON_FIRST. -/
def Config.rconFirst : Byte := 0x01

/-- Free value (log entry 1): what the host has on the input ports at edge number `n`, where no
stimulus has been placed in `State.inputs`. R160: "Any values of `rst`, `start`, `key_in`, `block_in`
at any edge are legal". -/
opaque Config.hostInput : Nat → PortSample

/-- Free value (log entry 10): how many S-box read ports beyond 16 an implementation has. -/
opaque Config.extraSboxReadPorts : Nat

/-- R5, D15: SBOX_READ_PORTS, "any number at least 16; not observable". -/
def Config.sboxReadPorts : Nat := 16 + Config.extraSboxReadPorts

end Sys2Proof
end

