-- ==== Sys2Proof/Machine/GaloisField.lean ====
section
/-! DEFINITION. The GF(2^8) units (spec/41_gf_units.md): `xtime`, multiplication by 1, 2 and 3, XOR. -/

namespace Sys2Proof.Machine

/-- R76: multiply by `x`. Shift left keeping nine bits; if the bit shifted out is 1, XOR the low eight with
0x1B. -/
def xtime (b : Byte) : Byte :=
  let t : BitVec 9 := b.zeroExtend 9 <<< 1
  let lo : Byte := t.extractLsb' 0 8
  if b.getLsbD 7 then lo ^^^ Config.gfReduce else lo

/-- R77: multiply by 1, a wire. -/
def mul1 (b : Byte) : Byte := b

/-- R78: multiply by 2. -/
def mul2 (b : Byte) : Byte := xtime b

/-- R79: multiply by 3. -/
def mul3 (b : Byte) : Byte := xtime b ^^^ b

/-- R80: field addition, "bitwise XOR". -/
def xor8 (a b : Byte) : Byte := a ^^^ b

/-- R80, R103: XOR of words, byte by byte at equal indices. -/
def xorWord (a b : Word) : Word :=
  ⟨xor8 a.b0 b.b0, xor8 a.b1 b.b1, xor8 a.b2 b.b2, xor8 a.b3 b.b3⟩

/-- R81: `xtime` applied `n` times. -/
def xtimeIter : Nat → Byte → Byte
  | 0, a => a
  | n + 1, a => xtime (xtimeIter n a)

/-- R81: one term of the derived product: `xtime^i(a)` where bit `i` of `b` is 1, else nothing. -/
def gmulTerm (a b : Byte) (i : Nat) : Byte :=
  if b.getLsbD i then xtimeIter i a else 0x00

/-- R81: the derived general product, for statements only: the hardware has no such unit and no operation
calls it. -/
def gmul (a b : Byte) : Byte :=
  (List.range 8).foldl (fun acc i => xor8 acc (gmulTerm a b i)) 0x00

end Sys2Proof.Machine
end

