-- ==== Sys2Proof/Machine/KeySchedule.lean ====
section
/-! DEFINITION. The key-schedule generator and the round constants (spec/43_key_schedule.md). -/

namespace Sys2Proof.Machine

/-- R100: `xtime` applied `n` times to 0x01, so `rconIter n` is `rcon(n + 1)`. -/
def rconIter : Nat → Byte
  | 0 => Config.rconFirst
  | n + 1 => xtime (rconIter n)

/-- R100: `rcon(n)` for `n` in 1..10; "`rcon(0)` and `rcon(11)` are not defined". -/
def rcon (n : Nat) : Option Byte :=
  if 1 ≤ n ∧ n ≤ 10 then some (rconIter (n - 1)) else none

/-- R102: rotate left by one byte. -/
def rotWord (w : Word) : Word := ⟨w.b1, w.b2, w.b3, w.b0⟩

/-- R104: substitute every byte through the S-box. -/
def subWord (w : Word) : Word := w.map subst

/-- R105: rotate, substitute, XOR the first byte with the round constant. -/
def gTransform (w : Word) (rc : Byte) : Word :=
  let u := subWord (rotWord w)
  ⟨xor8 u.b0 rc, u.b1, u.b2, u.b3⟩

/-- R106: one step of the key schedule. -/
def nextRoundKey (k : Block) (rc : Byte) : Block :=
  let n0 := xorWord (gTransform k.w3 rc) k.w0
  let n1 := xorWord n0 k.w1
  let n2 := xorWord n1 k.w2
  let n3 := xorWord n2 k.w3
  ⟨n0, n1, n2, n3⟩

/-- R107: round key `r` of the key `k`, `r` in 0..10. -/
def roundKey (k : Block) : Nat → Block
  | 0 => k
  | r + 1 => nextRoundKey (roundKey k r) (rconIter r)

/-- R107: the whole schedule, eleven round keys. -/
def expandKey (k : Block) : Vector Block 11 :=
  Vector.ofFn fun r => roundKey k r.val

end Sys2Proof.Machine
end

