-- ==== Sys2Proof/Syntax.lean ====
section
/-! DEFINITION. The operations of the engine, one constructor per row of the operation map
(spec/30_encoding.md R52). -/

namespace Sys2Proof

/-- R52: one constructor per row of the map. The arguments are the bits of the row's pattern that its
match does not fix: `start` where the pattern has `s`, `ph` where it has `ppp`, `rnd` where it has
`rrrr`. LOAD has two rows (accepted from IDLE, accepted from DONE) and so two constructors. There is no
other operand and no immediate (R53). Log entry 3. -/
inductive Instr where
  /-- RESET, `1 s ppp rrrr`. -/
  | reset (start : Bool) (ph : Phase) (rnd : RoundIndex)
  /-- IDLE, `0 0 000 rrrr`. -/
  | idle (rnd : RoundIndex)
  /-- LOAD from IDLE, `0 1 000 rrrr`. -/
  | loadIdle (rnd : RoundIndex)
  /-- LOAD from DONE, `0 1 101 rrrr`. -/
  | loadDone (rnd : RoundIndex)
  /-- KEXP, `0 s 001 rrrr`. -/
  | kexp (start : Bool) (rnd : RoundIndex)
  /-- INIT, `0 s 010 rrrr`. -/
  | init (start : Bool) (rnd : RoundIndex)
  /-- ROUND, `0 s 011 rrrr`. -/
  | round (start : Bool) (rnd : RoundIndex)
  /-- FINAL, `0 s 100 rrrr`. -/
  | final (start : Bool) (rnd : RoundIndex)
  /-- HOLD, `0 0 101 rrrr`. -/
  | hold (rnd : RoundIndex)
deriving DecidableEq, Repr

end Sys2Proof
end

