-- ==== Sys2Proof/WellFormed.lean ====
section
/-! DEFINITION. Which operations the map admits: the column "legal `RND`" of spec/30_encoding.md R52. -/

namespace Sys2Proof

/-- R52, R54: the round index of each operation is in its row's legal range. RESET takes any. -/
def Instr.wellFormed : Instr → Bool
  | .reset _ _ _ => true
  | .idle rnd => rnd == 0
  | .loadIdle rnd => rnd == 0
  | .loadDone rnd => rnd == 0
  | .kexp _ rnd => decide (1 ≤ rnd.toNat) && decide (rnd.toNat ≤ 10)
  | .init _ rnd => rnd == 0
  | .round _ rnd => decide (1 ≤ rnd.toNat) && decide (rnd.toNat ≤ 9)
  | .final _ rnd => rnd == 10
  | .hold rnd => rnd == 0

end Sys2Proof
end

