-- ==== Sys2Proof/Decode.lean ====
section
/-! DEFINITION. The control word: how it is formed (spec/30_encoding.md R50, R51), the operation map that
selects the operation (R52), the words that select none (R54), and the encoder. -/

namespace Sys2Proof

/-- R14, R51: the 3-bit code of each phase. -/
def Phase.code : Phase → BitVec 3
  | .idle => 0b000#3
  | .keyexp => 0b001#3
  | .init => 0b010#3
  | .round => 0b011#3
  | .final => 0b100#3
  | .done => 0b101#3
  | .reserved6 => 0b110#3
  | .reserved7 => 0b111#3

/-- R14: the phase with a given code. -/
def Phase.ofCode (c : BitVec 3) : Phase :=
  match c.toNat with
  | 0 => .idle
  | 1 => .keyexp
  | 2 => .init
  | 3 => .round
  | 4 => .final
  | 5 => .done
  | 6 => .reserved6
  | _ => .reserved7

/-- R50: `CW = { rst, start, PH[2:0], RND[3:0] }`, `rst` in bit 8. -/
def controlWord (rst start : Bool) (ph : Phase) (rnd : RoundIndex) : ControlWord :=
  BitVec.ofBool rst ++ BitVec.ofBool start ++ ph.code ++ rnd

/-- R50: bit 8 of the control word. -/
def cwRst (w : ControlWord) : Bool := w.getLsbD 8

/-- R50: bit 7 of the control word. -/
def cwStart (w : ControlWord) : Bool := w.getLsbD 7

/-- R50: bits 6:4 of the control word. -/
def cwPhase (w : ControlWord) : Phase := Phase.ofCode (w.extractLsb' 4 3)

/-- R50: bits 3:0 of the control word. -/
def cwRound (w : ControlWord) : RoundIndex := w.extractLsb' 0 4

/-- The rows of the operation map, by name. -/
inductive OpName where
  | reset
  | idle
  | loadIdle
  | loadDone
  | kexp
  | init
  | round
  | final
  | hold
deriving DecidableEq, Repr

/-- R52: one row of the map. `lo` and `hi` are the ends of its legal `RND` range. -/
structure OpRow where
  op : OpName
  mask : ControlWord
  bits : ControlWord
  lo : Nat
  hi : Nat
deriving DecidableEq, Repr

/-- R52: the nine rows, in the table's order. -/
def opRows : List OpRow :=
  [ ⟨.reset, 0x100, 0x100, 0, 15⟩,
    ⟨.idle, 0x1F0, 0x000, 0, 0⟩,
    ⟨.loadIdle, 0x1F0, 0x080, 0, 0⟩,
    ⟨.loadDone, 0x1F0, 0x0D0, 0, 0⟩,
    ⟨.kexp, 0x170, 0x010, 1, 10⟩,
    ⟨.init, 0x170, 0x020, 0, 0⟩,
    ⟨.round, 0x170, 0x030, 1, 9⟩,
    ⟨.final, 0x170, 0x040, 10, 10⟩,
    ⟨.hold, 0x1F0, 0x050, 0, 0⟩ ]

/-- R52: `(CW and mask) = match`. -/
def rowSelects (w : ControlWord) (row : OpRow) : Bool := (w &&& row.mask) == row.bits

/-- R52: `RND` is in the row's range. -/
def rowAdmits (w : ControlWord) (row : OpRow) : Bool :=
  decide (row.lo ≤ (cwRound w).toNat) && decide ((cwRound w).toNat ≤ row.hi)

/-- The operation of a row, with the bits of the word that the row leaves free. -/
def instrOfRow (op : OpName) (w : ControlWord) : Instr :=
  match op with
  | .reset => .reset (cwStart w) (cwPhase w) (cwRound w)
  | .idle => .idle (cwRound w)
  | .loadIdle => .loadIdle (cwRound w)
  | .loadDone => .loadDone (cwRound w)
  | .kexp => .kexp (cwStart w) (cwRound w)
  | .init => .init (cwStart w) (cwRound w)
  | .round => .round (cwStart w) (cwRound w)
  | .final => .final (cwStart w) (cwRound w)
  | .hold => .hold (cwRound w)

/-- R54: why a control word selects no operation. -/
inductive DecodeError where
  /-- `rst = 0` and the `PH` code is 110 or 111. -/
  | reservedPhase
  /-- `rst = 0`, a legal `PH` code, and `RND` outside the row's legal range. -/
  | roundOutOfRange
deriving DecidableEq, Repr

/-- R52, R54: the operation a control word selects, or why it selects none. -/
def decode (w : ControlWord) : Except DecodeError Instr :=
  match opRows.find? (rowSelects w) with
  | none => .error .reservedPhase
  | some row => if rowAdmits w row then .ok (instrOfRow row.op w) else .error .roundOutOfRange

/-- R50, R52: the control word of an operation. -/
def encode : Instr → ControlWord
  | .reset start ph rnd => controlWord true start ph rnd
  | .idle rnd => controlWord false false .idle rnd
  | .loadIdle rnd => controlWord false true .idle rnd
  | .loadDone rnd => controlWord false true .done rnd
  | .kexp start rnd => controlWord false start .keyexp rnd
  | .init start rnd => controlWord false start .init rnd
  | .round start rnd => controlWord false start .round rnd
  | .final start rnd => controlWord false start .final rnd
  | .hold rnd => controlWord false false .done rnd

/-- The control word whose bits the opcode table numbers as `w`, of `nbits` bits. A number of more than
nine bits is no control word. -/
def tableWord (nbits w : Nat) : Option ControlWord :=
  let v := w % 2 ^ nbits
  if v < 512 then some (BitVec.ofNat 9 v) else none

/-- The operation the decoder reads from a word of spec/opcode_table.json. -/
def decodeTableWord (nbits w : Nat) : Option Instr :=
  match tableWord nbits w with
  | none => none
  | some cw =>
    match decode cw with
    | .ok i => some i
    | .error _ => none

end Sys2Proof
end

