-- ==== Sys2Proof/Machine/ByteOrder.lean ====
section
/-! DEFINITION. Byte orders (spec/20_memory.md R33 to R37): the bytes of a block, the 4×4 matrix view of the
State, the words of a round key, and the 128-bit ports. -/

namespace Sys2Proof.Machine

/-- R7: byte `i` of a word, the first byte at index 0. -/
def wordByte (w : Word) (i : Fin 4) : Byte :=
  match i with
  | 0 => w.b0
  | 1 => w.b1
  | 2 => w.b2
  | 3 => w.b3

/-- R36: word `j` of a block, its bytes `4j .. 4j+3`. -/
def wordOf (a : Block) (j : Fin 4) : Word :=
  match j with
  | 0 => a.w0
  | 1 => a.w1
  | 2 => a.w2
  | 3 => a.w3

/-- R7: byte `i` of a 16-byte sequence. -/
def byteAt (a : Block) (i : Fin 16) : Byte :=
  wordByte (wordOf a ⟨i.val / 4, by omega⟩) ⟨i.val % 4, by omega⟩

/-- The 16-byte sequence with given bytes. -/
def blockOfBytes (f : Fin 16 → Byte) : Block :=
  ⟨⟨f 0, f 1, f 2, f 3⟩, ⟨f 4, f 5, f 6, f 7⟩, ⟨f 8, f 9, f 10, f 11⟩, ⟨f 12, f 13, f 14, f 15⟩⟩

/-- R33: `S[r][c]` of a State held in serialised order. -/
def matrixAt (s : Block) (r c : Fin 4) : Byte :=
  byteAt s ⟨r.val + 4 * c.val, by omega⟩

/-- R7: the State as "an ordered 4×4 matrix of bytes", a list of rows of fixed size. -/
abbrev Matrix4 := Vector (Vector Byte 4) 4

/-- R33: bytes to matrix, column-major. -/
def serialize (a : Block) : Matrix4 :=
  Vector.ofFn fun r => Vector.ofFn fun c => matrixAt a r c

/-- R33: matrix to bytes, the inverse mapping. -/
def deserialize (m : Matrix4) : Block :=
  blockOfBytes fun i => (m[i.val % 4])[i.val / 4]

/-- R34: the 32 bits of a word, first byte most significant (R36). -/
def packWord (w : Word) : BitVec 32 := w.b0 ++ w.b1 ++ w.b2 ++ w.b3

/-- R34: `pack(a[0..15]) = { a[0], a[1], ..., a[15] }`, `a[0]` most significant. -/
def pack (a : Block) : BitVec 128 :=
  packWord a.w0 ++ packWord a.w1 ++ packWord a.w2 ++ packWord a.w3

/-- The word with given 32 bits, the inverse of `packWord`. -/
def unpackWord (v : BitVec 32) : Word :=
  ⟨v.extractLsb' 24 8, v.extractLsb' 16 8, v.extractLsb' 8 8, v.extractLsb' 0 8⟩

/-- R34: `unpack(v)[i] = v[127 − 8·i : 120 − 8·i]`. -/
def unpack (v : BitVec 128) : Block :=
  ⟨unpackWord (v.extractLsb' 96 32), unpackWord (v.extractLsb' 64 32),
    unpackWord (v.extractLsb' 32 32), unpackWord (v.extractLsb' 0 32)⟩

/-- The bytes of a block as a list, byte 0 first. -/
def bytesOf (a : Block) : List Byte :=
  [a.w0.b0, a.w0.b1, a.w0.b2, a.w0.b3, a.w1.b0, a.w1.b1, a.w1.b2, a.w1.b3,
    a.w2.b0, a.w2.b1, a.w2.b2, a.w2.b3, a.w3.b0, a.w3.b1, a.w3.b2, a.w3.b3]

/-- The block of a list of sixteen bytes. It is used only on lists of that length (`boundaryCheck`). -/
def blockOfList (l : List Byte) : Block :=
  blockOfBytes fun i => l.getD i.val 0x00

end Sys2Proof.Machine
end

