-- ==== Sys2Proof/Machine/State.lean ====
section
/-! DEFINITION. The state of the machine: the five registers of the engine (spec/10_state.md R10) and, beside
them, the host's stimulus (spec/00_scope.md section 6, item 1), and the state after reset (R22). -/

namespace Sys2Proof.Machine

/-- R10: the engine's architectural state, "exactly the five items of this table". -/
structure Engine where
  /-- R14: `PH`, the controller phase. -/
  ph : Phase
  /-- R15: `RND`, the round counter. -/
  rnd : RoundIndex
  /-- R13: `RC`, the round-constant register. -/
  rc : Byte
  /-- R11: `ST`, the State, in serialised order. -/
  st : Block
  /-- R12: `RK[0..10]`, the round-key store. -/
  rk : Vector Block 11
deriving DecidableEq, Repr

/-- The machine: the engine's registers and the second agent, the host, as plain data. The two fields below
are the model's own, not the spec's (log entry 1). -/
structure State extends Engine where
  /-- What the host will put on the input ports at the coming edges, the next edge first. -/
  inputs : List PortSample
  /-- How many edges have passed: the argument of the free value `Config.hostInput`, which gives the
  inputs of the edges that `inputs` does not reach. No operation reads it. -/
  edge : Nat
deriving DecidableEq, Repr

/-- R140: the two errors of the boundary adapter. The engine itself never faults (R142). -/
inductive Fault where
  /-- Code 1, raised by the boundary adapter (`boundaryCheck`) when the key is not 16 bytes long; `step`
  never raises it. Safe: R144, no register changes. -/
  | invalidKeyLength (required actual : Nat)
  /-- Code 2, raised by the boundary adapter when the key is 16 bytes long and the plaintext is not; `step`
  never raises it. Safe: R144, no register changes. -/
  | invalidBlockLength (required actual : Nat)
deriving DecidableEq, Repr

/-- Why a step is refused. -/
inductive Refusal where
  /-- An operation with no meaning in this model; no arm of `exec` raises it. -/
  | notModelled (mnemonic : String)
  /-- R54: `rst = 0` and `PH` holds the code 110 or 111; raised by `step`. Safe: the spec gives the word no
  meaning and says "refuse them: no step, no output". -/
  | reservedPhase
  /-- R54: `rst = 0` and `RND` is outside the range its phase allows; raised by `step`, and by `exec` on an
  operation that is not well formed. Safe, for the same reason. -/
  | roundOutOfRange
deriving DecidableEq, Repr

/-- R22: every register after an edge with `rst = 1`. -/
def Engine.reset : Engine where
  ph := .idle
  rnd := 0
  rc := 0x01
  st := Block.zero
  rk := Vector.replicate 11 Block.zero

/-- R22, R23: the model starts in the reset state. Of the two fields of the model's own, no stimulus has
been placed and no edge has been counted (log entry 1). -/
def State.reset : State where
  toEngine := Engine.reset
  inputs := []
  edge := 0

end Sys2Proof.Machine
end

