-- ==== Sys2Proof/Machine/Operands.lean ====
section
/-! DEFINITION. What an operation reads: the sampled ports (spec/10_state.md R17), the control word formed from them
and the position (spec/30_encoding.md R50), and the round-key indices (R53, spec/20_memory.md R32). -/

namespace Sys2Proof.Machine

/-- The values of the input ports at the `k`-th edge from now, `k = 0` being the coming one: what the host has
placed, and beyond that the free value (log entry 1). -/
def State.sampleAt (s : State) (k : Nat) : PortSample :=
  match s.inputs[k]? with
  | some i => i
  | none => Config.hostInput (s.edge + k)

/-- R117 (1): the ports as sampled at this edge. -/
def State.sample (s : State) : PortSample := s.sampleAt 0

/-- R50: the control word of this edge, from the sampled inputs and the pre-edge position. -/
def State.cw (s : State) : ControlWord :=
  controlWord s.sample.rst s.sample.start s.ph s.rnd

/-- R120: the key on `key_in` at this edge. -/
def State.sampledKey (s : State) : Block := unpack s.sample.keyIn

/-- R120: the block on `block_in` at this edge. -/
def State.sampledBlock (s : State) : Block := unpack s.sample.blockIn

/-- R32: `MemRead(RKS, i, 16)`, a whole entry of the round-key store. -/
def State.readRoundKey (s : State) (i : Fin 11) : Block := s.rk[i]

/-- R32, R53: KEXP at `RND = r`, `r` in 1..10, reads entry `r − 1` and writes entry `r`. -/
def kexpEntries (rnd : RoundIndex) : Option (Fin 11 × Fin 11) :=
  if h : 1 ≤ rnd.toNat ∧ rnd.toNat ≤ 10 then
    some (⟨rnd.toNat - 1, by omega⟩, ⟨rnd.toNat, by omega⟩)
  else none

/-- R32, R53: ROUND at `RND = r`, `r` in 1..9, reads entry `r`. -/
def roundEntry (rnd : RoundIndex) : Option (Fin 11) :=
  if h : 1 ≤ rnd.toNat ∧ rnd.toNat ≤ 9 then some ⟨rnd.toNat, by omega⟩ else none

/-- R32, R53: FINAL, at `RND = 10` only, reads entry 10. -/
def finalEntry (rnd : RoundIndex) : Option (Fin 11) :=
  if rnd = 10 then some 10 else none

/-- R32, R53: INIT, at `RND = 0` only, reads entry 0. -/
def initEntry (rnd : RoundIndex) : Option (Fin 11) :=
  if rnd = 0 then some 0 else none

end Sys2Proof.Machine
end

