-- ==== Sys2Proof/Machine/Ops.lean ====
section
/-! DEFINITION. The named operations over the registers: register writes, the shared bodies of the operations, the
passing of one edge, and the boundary errors. Every write names the register it writes; a register not written keeps
its value (spec/44_controller.md, the template). The hardware has no trap and no exception entry (spec/60_exceptions.md
R142, R144): its only errors are the two of the boundary adapter, raised by the one shared check `boundaryCheck`. -/

namespace Sys2Proof.Machine

/-- `PH <- p`. -/
def State.writePh (s : State) (p : Phase) : State := { s with ph := p }

/-- `RND <- n`. -/
def State.writeRnd (s : State) (n : RoundIndex) : State := { s with rnd := n }

/-- `RC <- v`. -/
def State.writeRc (s : State) (v : Byte) : State := { s with rc := v }

/-- `ST <- v`, all sixteen bytes together (R39). -/
def State.writeSt (s : State) (v : Block) : State := { s with st := v }

/-- R32: `RK[i] <- v`, a whole entry of the round-key store. -/
def State.writeRoundKey (s : State) (i : Fin 11) (v : Block) : State :=
  { s with rk := s.rk.set i v }

/-- R118: every register written with its reset value. -/
def State.zeroise (s : State) : State := { s with toEngine := Engine.reset }

/-- R120: the body of LOAD: the key, the block and the first round constant are taken together. -/
def State.acceptRequest (s : State) : State :=
  ((((s.writeRoundKey 0 s.sampledKey).writeSt s.sampledBlock).writeRc Config.rconFirst).writeRnd
    1).writePh .keyexp

/-- The passing of the edge, on the host's side: the sample just taken is spent. -/
def State.nextEdge (s : State) : State :=
  { s with inputs := s.inputs.tail, edge := s.edge + 1 }

/-- The host places the values of the ports for the coming edge before those already placed. -/
def State.drive (s : State) (i : PortSample) : State := { s with inputs := i :: s.inputs }

/-- R52, R54: an operation whose round index must be 0 is performed on that index only. -/
def whenRoundZero (rnd : RoundIndex) (t : State) : Host.Outcome State Fault Refusal :=
  if rnd = 0 then .next t else .refused .roundOutOfRange

/-- R8, R57: the input vector `TICK`. -/
def tickSample : PortSample := ⟨false, false, 0, 0⟩

/-- R57: the input vector `START k p`. -/
def startSample (k p : BitVec 128) : PortSample := ⟨false, true, k, p⟩

/-- R57: the input vector `RESET`. -/
def resetSample : PortSample := ⟨true, false, 0, 0⟩

/-- R140: the numeric code of a boundary error. -/
def Fault.code : Fault → Nat
  | .invalidKeyLength _ _ => 1
  | .invalidBlockLength _ _ => 2

/-- R141, R143: the lengths are checked before anything else, the key's first; nothing is padded and nothing
truncated. -/
def boundaryCheck (key plaintext : List Byte) : Except Fault (Block × Block) :=
  if key.length ≠ Config.keyBytes then
    .error (.invalidKeyLength Config.keyBytes key.length)
  else if plaintext.length ≠ Config.blockBytes then
    .error (.invalidBlockLength Config.blockBytes plaintext.length)
  else .ok (blockOfList key, blockOfList plaintext)

end Sys2Proof.Machine
end

