-- ==== Sys2Proof/Machine/Control.lean ====
section
/-! DEFINITION. The operations that move no data through the datapath: RESET, IDLE, LOAD and HOLD
(spec/44_controller.md R118, R119, R120, R125). -/

namespace Sys2Proof.Machine

/-- R118: RESET, from every position, whatever `start` is. -/
def execReset (_start : Bool) (_ph : Phase) (_rnd : RoundIndex) (s : State) :
    Host.Outcome State Fault Refusal :=
  .next s.zeroise

/-- R119: IDLE, "no register changes". -/
def execIdle (rnd : RoundIndex) (s : State) : Host.Outcome State Fault Refusal :=
  whenRoundZero rnd s

/-- R120: LOAD accepted in IDLE. -/
def execLoadIdle (rnd : RoundIndex) (s : State) : Host.Outcome State Fault Refusal :=
  whenRoundZero rnd s.acceptRequest

/-- R120: LOAD accepted in DONE. -/
def execLoadDone (rnd : RoundIndex) (s : State) : Host.Outcome State Fault Refusal :=
  whenRoundZero rnd s.acceptRequest

/-- R125: HOLD, "no register changes". -/
def execHold (rnd : RoundIndex) (s : State) : Host.Outcome State Fault Refusal :=
  whenRoundZero rnd s

end Sys2Proof.Machine
end

