-- ==== Sys2Proof/Machine/Expansion.lean ====
section
/-! DEFINITION. The key-expansion operation KEXP (spec/44_controller.md R121). -/

namespace Sys2Proof.Machine

/-- R121: KEXP at `RND = r`. The comparison `r <= 9` is on the round index, never on data. -/
def execKexp (_start : Bool) (rnd : RoundIndex) (s : State) : Host.Outcome State Fault Refusal :=
  match kexpEntries rnd with
  | none => .refused .roundOutOfRange
  | some (previous, r) =>
    let t := s.writeRoundKey r (nextRoundKey (s.readRoundKey previous) s.rc)
    if r.val ≤ 9 then .next ((t.writeRc (xtime s.rc)).writeRnd (rnd + 1))
    else .next ((t.writeRnd 0).writePh .init)

end Sys2Proof.Machine
end

