-- ==== Sys2Proof/Machine/RoundTransforms.lean ====
section
/-! DEFINITION. The four state transformations and the two round functions (spec/42_round_transforms.md). A State
is held in serialised order, so word `c` of the block is column `c` (R88). -/

namespace Sys2Proof.Machine

/-- R85: every byte is replaced by `subst` of it. -/
def subBytes (s : Block) : Block :=
  ⟨s.w0.map subst, s.w1.map subst, s.w2.map subst, s.w3.map subst⟩

/-- R86: row `r` is rotated left by `r`: the new byte at column `c` comes from column `(c + r) mod 4`. -/
def shiftRows (s : Block) : Block :=
  ⟨⟨s.w0.b0, s.w1.b1, s.w2.b2, s.w3.b3⟩, ⟨s.w1.b0, s.w2.b1, s.w3.b2, s.w0.b3⟩,
    ⟨s.w2.b0, s.w3.b1, s.w0.b2, s.w1.b3⟩, ⟨s.w3.b0, s.w0.b1, s.w1.b2, s.w2.b3⟩⟩

/-- R87: the single-column unit. -/
def mixColumn (c : Word) : Word :=
  ⟨mul2 c.b0 ^^^ mul3 c.b1 ^^^ mul1 c.b2 ^^^ mul1 c.b3,
    mul1 c.b0 ^^^ mul2 c.b1 ^^^ mul3 c.b2 ^^^ mul1 c.b3,
    mul1 c.b0 ^^^ mul1 c.b1 ^^^ mul2 c.b2 ^^^ mul3 c.b3,
    mul3 c.b0 ^^^ mul1 c.b1 ^^^ mul1 c.b2 ^^^ mul2 c.b3⟩

/-- R88: the single-column unit on each column. -/
def mixColumns (s : Block) : Block :=
  ⟨mixColumn s.w0, mixColumn s.w1, mixColumn s.w2, mixColumn s.w3⟩

/-- R89, R37: each state byte XOR the round-key byte of the same index. -/
def addRoundKey (s k : Block) : Block :=
  ⟨xorWord s.w0 k.w0, xorWord s.w1 k.w1, xorWord s.w2 k.w2, xorWord s.w3 k.w3⟩

/-- R90: one full round. -/
def roundFn (s k : Block) : Block :=
  addRoundKey (mixColumns (shiftRows (subBytes s))) k

/-- R91: the final round, MixColumns omitted. -/
def finalFn (s k : Block) : Block :=
  addRoundKey (shiftRows (subBytes s)) k

end Sys2Proof.Machine
end

