-- ==== Sys2Proof/Machine/Rounds.lean ====
section
/-! DEFINITION. The operations of the round pipeline: INIT, ROUND and FINAL (spec/44_controller.md R122 to R124). -/

namespace Sys2Proof.Machine

/-- R122: INIT, the source's state `Initial`. -/
def execInit (_start : Bool) (rnd : RoundIndex) (s : State) : Host.Outcome State Fault Refusal :=
  match initEntry rnd with
  | none => .refused .roundOutOfRange
  | some i =>
    .next (((s.writeSt (addRoundKey s.st (s.readRoundKey i))).writeRnd 1).writePh .round)

/-- R123: ROUND at `RND = r`; the ninth moves to FINAL. -/
def execRound (_start : Bool) (rnd : RoundIndex) (s : State) : Host.Outcome State Fault Refusal :=
  match roundEntry rnd with
  | none => .refused .roundOutOfRange
  | some r =>
    let t := (s.writeSt (roundFn s.st (s.readRoundKey r))).writeRnd (rnd + 1)
    if r = 9 then .next (t.writePh .final) else .next t

/-- R124: FINAL, the tenth round. -/
def execFinal (_start : Bool) (rnd : RoundIndex) (s : State) : Host.Outcome State Fault Refusal :=
  match finalEntry rnd with
  | none => .refused .roundOutOfRange
  | some i =>
    .next (((s.writeSt (finalFn s.st (s.readRoundKey i))).writeRnd 0).writePh .done)

end Sys2Proof.Machine
end

