-- ==== Sys2Proof/Machine/Dispatch.lean ====
section
/-! DEFINITION. The operation performed at an edge, one arm per row of the map (spec/30_encoding.md R52). -/

namespace Sys2Proof.Machine

def exec (i : Instr) (s : State) : Host.Outcome State Fault Refusal :=
  match i with
  | .reset start ph rnd => Sys2Proof.Machine.execReset start ph rnd s
  | .idle rnd => Sys2Proof.Machine.execIdle rnd s
  | .loadIdle rnd => Sys2Proof.Machine.execLoadIdle rnd s
  | .loadDone rnd => Sys2Proof.Machine.execLoadDone rnd s
  | .kexp start rnd => Sys2Proof.Machine.execKexp start rnd s
  | .init start rnd => Sys2Proof.Machine.execInit start rnd s
  | .round start rnd => Sys2Proof.Machine.execRound start rnd s
  | .final start rnd => Sys2Proof.Machine.execFinal start rnd s
  | .hold rnd => Sys2Proof.Machine.execHold rnd s

end Sys2Proof.Machine
end

