-- ==== Sys2Proof/Machine/Step.lean ====
section
/-! DEFINITION. One step of the machine: one rising edge of `clk` (spec/44_controller.md R117). -/

namespace Sys2Proof.Machine

/-- R54: the refusal that answers a control word with no meaning. -/
def refusalOf : DecodeError → Refusal
  | .reservedPhase => .reservedPhase
  | .roundOutOfRange => .roundOutOfRange

/-- What the edge adds around the operation: the sample just taken is spent. -/
def afterEdge : Host.Outcome State Fault Refusal → Host.Outcome State Fault Refusal
  | .next t => .next t.nextEdge
  | .fault f => .fault f
  | .refused r => .refused r

/-- R117: sample the ports, form the control word, select the one operation it matches, perform it. -/
def step (s : State) : Host.Outcome State Fault Refusal :=
  match decode s.cw with
  | .error e => .refused (refusalOf e)
  | .ok i => afterEdge (exec i s)

/-- The data the host has on the ports for the coming edge, zero where it has placed none (log entry 4). -/
def placedSample (s : State) : PortSample :=
  match s.inputs with
  | [] => tickSample
  | i :: _ => i

/-- `s` with the control word of the coming edge equal to `w`: the position registers take its fields `PH` and
`RND`, the host's next sample its bits `rst` and `start`. The engine fetches nothing (R46), so this is what it takes
for the very next step to perform the operation of `w` (log entry 4). -/
def State.withFetchWord (s : State) (nbits w : Nat) : State :=
  let cw : ControlWord := BitVec.ofNat 9 (w % 2 ^ nbits)
  { s with
    ph := cwPhase cw
    rnd := cwRound cw
    inputs := { placedSample s with rst := cwRst cw, start := cwStart cw } :: s.inputs.tail }

end Sys2Proof.Machine
end

