-- ==== Sys2Proof/Machine/Cipher.lean ====
section
/-! DEFINITION. The function the block computes, with no clock (spec/44_controller.md R115, R116). -/

namespace Sys2Proof.Machine

/-- R115: the indices of the full rounds, in order. -/
def fullRounds : List (Fin 11) := [1, 2, 3, 4, 5, 6, 7, 8, 9]

/-- R115: the pipeline state after the initial AddRoundKey and the first `n` full rounds, `n` in 0..9. -/
def afterRound (p : Block) (rk : Vector Block 11) (n : Nat) : Block :=
  (fullRounds.take n).foldl (fun s r => roundFn s rk[r]) (addRoundKey p rk[0])

/-- R115: the round pipeline. -/
def cipher (p : Block) (rk : Vector Block 11) : Block :=
  finalFn (afterRound p rk 9) rk[10]

/-- R116: the block's function. -/
def encrypt (k p : Block) : Block := cipher p (expandKey k)

end Sys2Proof.Machine
end

