-- ==== Sys2Proof/Machine/Flags.lean ====
section
/-! DEFINITION. The engine has no flags and no condition codes (spec/10_state.md R19). Its status is the output ports,
"combinational functions of the registers alone" (R18). -/

namespace Sys2Proof.Machine

/-- R18: `done = 1 if PH = DONE else 0`. -/
def Engine.done (e : Engine) : Bool := e.ph == .done

/-- R18: `busy = 1 if PH in {KEYEXP, INIT, ROUND, FINAL} else 0`. -/
def Engine.busy (e : Engine) : Bool :=
  e.ph == .keyexp || e.ph == .init || e.ph == .round || e.ph == .final

/-- R18: `ct_out = pack(ST[0..15]) if PH = DONE else 128 zero bits`. -/
def Engine.ctOut (e : Engine) : BitVec 128 := if e.ph = .done then pack e.st else 0

/-- R120, R126: the two phases in which `start` is honoured. -/
def Engine.resting (e : Engine) : Bool := e.ph == .idle || e.ph == .done

end Sys2Proof.Machine
end

