-- ==== Sys2Proof/Machine/Adapter.lean ====
section
/-! DEFINITION. The boundary adapter `EncryptBytes` (spec/60_exceptions.md R140 to R144), as a function and as a host that
drives the engine. It is host-side: it uses the engine only through its ports. -/

namespace Sys2Proof.Machine

/-- R141: `EncryptBytes(key, plaintext)`, a 16-byte ciphertext or one error. -/
def encryptBytes (key plaintext : List Byte) : Except Fault (List Byte) :=
  match boundaryCheck key plaintext with
  | .error f => .error f
  | .ok (k, p) => .ok (bytesOf (encrypt k p))

/-- The host lets the clock tick with `start = 0` until `stop` holds of the engine, at most `n` edges. -/
def tickUntil (stop : Engine → Bool) : Nat → State → Host.Outcome State Fault Refusal
  | 0, s => .next s
  | n + 1, s =>
    if stop s.toEngine then .next s
    else
      match step (s.drive tickSample) with
      | .next t => tickUntil stop n t
      | .fault f => .fault f
      | .refused r => .refused r

/-- R141: "present `pack(key)` and `pack(plaintext)` with `start = 1` at an edge where the engine is in IDLE or DONE,
wait until `done = 1`". The engine is at rest when this is called. -/
def submitRequest (k p : Block) (s : State) : Host.Outcome State Fault Refusal :=
  match step (s.drive (startSample (pack k) (pack p))) with
  | .next t => tickUntil Engine.done 21 t
  | .fault f => .fault f
  | .refused r => .refused r

/-- R141, R144: one call of the adapter on an engine in state `s`: a wrong length is an error raised before the engine
is touched; otherwise the adapter waits for IDLE or DONE, presents the request and waits for `done`. The ciphertext is
`unpack(ct_out)` of the state answered. Log entry 5. -/
def adapterCall (key plaintext : List Byte) (s : State) : Host.Outcome State Fault Refusal :=
  match boundaryCheck key plaintext with
  | .error f => .fault f
  | .ok (k, p) =>
    match tickUntil Engine.resting 21 s with
    | .next r => submitRequest k p r
    | .fault f => .fault f
    | .refused r => .refused r

end Sys2Proof.Machine
end

