-- ==== Sys2Proof/Machine/Stimulus.lean ====
section
/-! DEFINITION. The stimulus notation of the spec's test programs (spec/30_encoding.md R57). It is the spec's own notation
and no part of the hardware. -/

namespace Sys2Proof.Machine

/-- R57: the lines of a program. `k`, `p` and `ct` are port values. -/
inductive Line where
  | reset
  | start (k p : BitVec 128)
  | tick
  | drive (rst start : Bool) (k p : BitVec 128)
  | expect (done busy : Bool) (ct : BitVec 128)
deriving DecidableEq, Repr

/-- R57: the input vector of a line; `EXPECT` has none, it takes no edge. -/
def lineSample : Line → Option PortSample
  | .reset => some resetSample
  | .start k p => some (startSample k p)
  | .tick => some tickSample
  | .drive rst start k p => some ⟨rst, start, k, p⟩
  | .expect _ _ _ => none

/-- R57: the 258-bit encoding `{ rst, start, key_in[127:0], block_in[127:0] }`. -/
def encodeSample (i : PortSample) : BitVec 258 :=
  BitVec.ofBool i.rst ++ BitVec.ofBool i.start ++ i.keyIn ++ i.blockIn

/-- R57: `TICK n`, n lines `TICK`. -/
def tickLines (n : Nat) : List Line := List.replicate n .tick

/-- R57: `ENCRYPT k p c`. -/
def encryptLines (k p c : BitVec 128) : List Line :=
  .start k p :: tickLines 21 ++ [.expect true false c]

/-- R57: a check holds of the outputs of the current state. -/
def expectHolds (done busy : Bool) (ct : BitVec 128) (s : State) : Bool :=
  s.done == done && s.busy == busy && s.ctOut == ct

/-- R57: the state at the end of a program, or nothing if a check fails or a step does not answer. -/
def runLines : List Line → State → Option State
  | [], s => some s
  | .expect done busy ct :: rest, s =>
    if expectHolds done busy ct s then runLines rest s else none
  | line :: rest, s =>
    match lineSample line with
    | none => none
    | some i =>
      match step (s.drive i) with
      | .next t => runLines rest t
      | .fault _ => none
      | .refused _ => none

/-- R57: how many lines `TICK` pass from a state until the current state has `done = 1`, if at most the given number do. -/
def ticksToDone : Nat → State → Option Nat
  | 0, s => if s.done then some 0 else none
  | n + 1, s =>
    if s.done then some 0
    else
      match step (s.drive tickSample) with
      | .next t => (ticksToDone n t).map (· + 1)
      | .fault _ => none
      | .refused _ => none

/-- R57: `WAITDONE` in state `s`, "lines `TICK` repeated until the current state has `done = 1`": no line in DONE, 21 after
an accepted `START`. Of the legal positions only IDLE has no expansion: there `done` never rises, and from a busy one 21
lines are enough (R167). Log entry 13. -/
def waitDoneLines (s : State) : Option (List Line) := (ticksToDone 21 s).map tickLines

/-- R57: what may stand in a program: a line, or one of the three pseudo-lines. -/
inductive ProgramLine where
  | line (l : Line)
  | ticks (n : Nat)
  | encrypt (k p c : BitVec 128)
  | waitDone
deriving DecidableEq, Repr

/-- R57: the expansion of a pseudo-line where the current state is `s`; only that of `WAITDONE` depends on it. -/
def expandLine (s : State) : ProgramLine → Option (List Line)
  | .line l => some [l]
  | .ticks n => some (tickLines n)
  | .encrypt k p c => some (encryptLines k p c)
  | .waitDone => waitDoneLines s

/-- R57: the state at the end of a program with pseudo-lines, each expanded where it is reached; nothing if a check fails,
a step does not answer or a `WAITDONE` has no end. -/
def runProgram : List ProgramLine → State → Option State
  | [], s => some s
  | l :: rest, s =>
    match expandLine s l with
    | none => none
    | some lines =>
      match runLines lines s with
      | none => none
      | some t => runProgram rest t

end Sys2Proof.Machine
end

