-- ==== Sys2Proof/Safety.lean ====
section
/-! DEFINITION. The terms the statements use: the legal positions (spec/10_state.md R15, R16), the schedule of an encryption
(spec/44_controller.md R127), the invariants of the state (spec/10_state.md R24), and runs. -/

namespace Sys2Proof.Machine

/-- R15: the legal values of `RND` in each phase; a code that is no phase has none. -/
def legalPosition (ph : Phase) (rnd : RoundIndex) : Bool :=
  match ph with
  | .idle => rnd == 0
  | .keyexp => decide (1 ≤ rnd.toNat) && decide (rnd.toNat ≤ 10)
  | .init => rnd == 0
  | .round => decide (1 ≤ rnd.toNat) && decide (rnd.toNat ≤ 9)
  | .final => rnd == 10
  | .done => rnd == 0
  | .reserved6 => false
  | .reserved7 => false

/-- R16: the 23 positions in the order in which an encryption passes them. -/
def positionOrder : List (Phase × RoundIndex) :=
  [(.idle, 0), (.keyexp, 1), (.keyexp, 2), (.keyexp, 3), (.keyexp, 4), (.keyexp, 5), (.keyexp, 6),
    (.keyexp, 7), (.keyexp, 8), (.keyexp, 9), (.keyexp, 10), (.init, 0), (.round, 1), (.round, 2),
    (.round, 3), (.round, 4), (.round, 5), (.round, 6), (.round, 7), (.round, 8), (.round, 9),
    (.final, 10), (.done, 0)]

/-- R16: the controller position. -/
def Engine.position (e : Engine) : Phase × RoundIndex := (e.ph, e.rnd)

/-- R16: the engine is at one of the 23 positions. -/
def Engine.atLegalPosition (e : Engine) : Bool := legalPosition e.ph e.rnd

/-- R120, R161: a LOAD is performed at this edge. -/
def State.acceptsRequest (s : State) : Bool :=
  s.sample.start && !s.sample.rst && s.resting && s.rnd == 0

/-- `rst` is 0 at the edges number `lo` to `hi` from now, both included. -/
def State.noResetFrom (s : State) (lo hi : Nat) : Prop :=
  ∀ k, lo ≤ k → k ≤ hi → (s.sampleAt k).rst = false

/-- R127: the position after edge `t + k` of an encryption whose LOAD is at edge `t`, `k` in 0..21. -/
def scheduledPosition (k : Nat) : Phase × RoundIndex :=
  if k ≤ 9 then (.keyexp, BitVec.ofNat 4 (k + 1))
  else if k = 10 then (.init, 0)
  else if k ≤ 19 then (.round, BitVec.ofNat 4 (k - 10))
  else if k = 20 then (.final, 10)
  else (.done, 0)

/-- R87: the coefficient matrix of MixColumn, row `i` column `j` the multiplier of `cj` in `ci'`. -/
def mixMatrix : Matrix4 :=
  #v[#v[0x02, 0x03, 0x01, 0x01], #v[0x01, 0x02, 0x03, 0x01], #v[0x01, 0x01, 0x02, 0x03],
    #v[0x03, 0x01, 0x01, 0x02]]

/-- R107: the flat word numbering W0..W43 of a schedule, `W(4r+j) = Word(RK[r], j)`. -/
def scheduleWord (rk : Vector Block 11) (i : Fin 44) : Word :=
  wordOf rk[i.val / 4] ⟨i.val % 4, by omega⟩

/-- R24: what the registers hold once the key `k` and the block `p` have been sampled by the last LOAD. -/
structure Engine.Tracks (k p : Block) (e : Engine) : Prop where
  /-- (a) -/
  legal : e.atLegalPosition = true
  /-- (b) -/
  expanding : e.ph = .keyexp → rcon e.rnd.toNat = some e.rc ∧
    ∀ j : Fin 11, j.val < e.rnd.toNat → e.rk[j] = roundKey k j.val
  /-- (c) -/
  expanded : e.ph = .init ∨ e.ph = .round ∨ e.ph = .final ∨ e.ph = .done →
    e.rk = expandKey k ∧ e.rc = 0x36
  /-- R121: "`ST` is not touched: it keeps the plaintext through all ten KEXP steps". -/
  waiting : e.ph = .keyexp ∨ e.ph = .init → e.st = p
  /-- (d) -/
  inRounds : e.ph = .round ∨ e.ph = .final → e.st = afterRound p (expandKey k) (e.rnd.toNat - 1)
  /-- (e) -/
  finished : e.ph = .done → e.st = encrypt k p

/-- R24, for the key and block of the last LOAD, whatever they were. -/
def Engine.Invariant (e : Engine) : Prop := ∃ k p : Block, e.Tracks k p

/-- The outcome of `n` steps. -/
def runSteps (n : Nat) (s : State) : Host.Outcome State Fault Refusal :=
  Host.Core.run Sys2Proof.core n s

/-- R156, R160: a safe run: no step of it faults or is refused. -/
def SafeFor (n : Nat) (s : State) : Prop := ∃ t, runSteps n s = .next t

end Sys2Proof.Machine
end

