-- ==== Sys2Proof/Certificates/Slice0/Obligations.lean ====
section
/-! DEFINITION. The statements about the model, for the provers. Each docstring names the rules of spec/ it follows. The
hardware has no data memory (spec/20_memory.md R30): a frame speaks of the five registers, of every entry of the
round-key store, and of the host's side of the state (`inputs`, `edge`; log entry 1). -/

open Sys2Proof Sys2Proof.Machine

/-! ### The control word and the step -/

/-- R50, R51, R52: no bit of an encoding is dropped. -/
def Obligations.DecodeAfterEncodeReturnsTheOperation : Prop :=
  ∀ i : Instr, i.wellFormed = true → decode (encode i) = .ok i

/-- R50, R52: what the decoder accepts is in its row's legal range and is encoded by the word it was read from. -/
def Obligations.AcceptedWordsEncodeBack : Prop :=
  ∀ (w : ControlWord) (i : Instr), decode w = .ok i → i.wellFormed = true ∧ encode i = w

/-- R52, R54: the rows are disjoint; without reset a word selects an operation exactly at a legal position; with
`rst = 1` every word is RESET. -/
def Obligations.RowsAreDisjointAndReservedWordsSelectNothing : Prop :=
  (∀ (w : ControlWord), ∀ a ∈ opRows, ∀ b ∈ opRows,
      rowSelects w a = true → rowSelects w b = true → a = b) ∧
    (∀ (start : Bool) (ph : Phase) (rnd : RoundIndex),
      (∃ i, decode (controlWord false start ph rnd) = .ok i) ↔ legalPosition ph rnd = true) ∧
    ∀ (start : Bool) (ph : Phase) (rnd : RoundIndex),
      decode (controlWord true start ph rnd) = .ok (.reset start ph rnd)

/-- 95_test_vectors.md section 10: control words printed in the traces P1, P2, P3, with their operations. -/
def Obligations.TraceWordsDecodeAsPrinted : Prop :=
  decode 0x000#9 = .ok (.idle 0) ∧ decode 0x080#9 = .ok (.loadIdle 0) ∧
    decode 0x0d0#9 = .ok (.loadDone 0) ∧ decode 0x011#9 = .ok (.kexp false 1) ∧
    decode 0x095#9 = .ok (.kexp true 5) ∧ decode 0x01a#9 = .ok (.kexp false 10) ∧
    decode 0x020#9 = .ok (.init false 0) ∧ decode 0x0a0#9 = .ok (.init true 0) ∧
    decode 0x031#9 = .ok (.round false 1) ∧ decode 0x0b9#9 = .ok (.round true 9) ∧
    decode 0x04a#9 = .ok (.final false 10) ∧ decode 0x0ca#9 = .ok (.final true 10) ∧
    decode 0x050#9 = .ok (.hold 0) ∧ decode 0x198#9 = .ok (.reset true .keyexp 8)

/-- R117: the step samples the ports, forms the control word and performs the operation it selects. Around the
operation the model spends the sample it took and counts the edge (log entry 1). -/
def Obligations.StepPerformsTheSelectedOperation : Prop :=
  ∀ (s : State) (i : Instr),
    decode (controlWord s.sample.rst s.sample.start s.ph s.rnd) = .ok i →
      (∀ t, exec i s = .next t →
        ∃ u, step s = .next u ∧ u.toEngine = t.toEngine ∧ u.inputs = t.inputs.tail ∧
          u.edge = t.edge + 1) ∧
      (∀ f, exec i s = .fault f → step s = .fault f) ∧
      (∀ r, exec i s = .refused r → step s = .refused r)

/-- R54, D14: with `rst = 0` a position outside the 23 is refused: no step, no output. That these positions can be
represented, and the names `reservedPhase` and `roundOutOfRange` of the answers, are the model's choice (log entry 2). -/
def Obligations.StepRefusesIllegalPositions : Prop :=
  ∀ s : State, s.sample.rst = false →
    (s.ph = .reserved6 ∨ s.ph = .reserved7 → step s = .refused .reservedPhase) ∧
      (s.ph ≠ .reserved6 → s.ph ≠ .reserved7 → s.atLegalPosition = false →
        step s = .refused .roundOutOfRange)

/-- R54, log entry 2 (the model's choice of answer): an operation with a round index outside its row's range is
refused, never performed. -/
def Obligations.IllFormedOperationsAreRefused : Prop :=
  ∀ (i : Instr) (s : State), i.wellFormed = false → exec i s = .refused .roundOutOfRange

/-- R142: "A model of the engine alone has no fault outcome at all". -/
def Obligations.EngineNeverFaults : Prop :=
  ∀ (s : State) (f : Fault), step s ≠ .fault f

/-- R117, R160 (an inference of the spec over the reachable states): at every legal position and for all inputs there
is a step, and it leads to a legal position. -/
def Obligations.EveryLegalPositionHasAStep : Prop :=
  ∀ s : State, s.atLegalPosition = true → ∃ t, step s = .next t ∧ t.atLegalPosition = true

/-! ### Reset, positions, outputs -/

/-- R22: the reset values and the outputs they give. -/
def Obligations.ResetStateHoldsTheResetValues : Prop :=
  State.reset.ph = .idle ∧ State.reset.rnd = 0 ∧ State.reset.rc = 0x01 ∧
    (∀ i : Fin 16, byteAt State.reset.st i = 0x00) ∧
    (∀ (j : Fin 11) (i : Fin 16), byteAt State.reset.rk[j] i = 0x00) ∧
    State.reset.done = false ∧ State.reset.busy = false ∧ State.reset.ctOut = 0 ∧
    State.reset.atLegalPosition = true

/-- R24 (which the spec marks as derived): the invariant holds in the reset state. -/
def Obligations.ResetStateMeetsTheScheduleInvariant : Prop :=
  State.reset.toEngine.Invariant

/-- R24 (which the spec marks as derived "by induction"): every step keeps the invariant of the registers. -/
def Obligations.EveryStepKeepsTheScheduleInvariant : Prop :=
  ∀ s t : State, s.toEngine.Invariant → step s = .next t → t.toEngine.Invariant

/-- R24 (which the spec marks as derived), for the key and block of the last LOAD: a step that accepts no request
keeps them, one that does takes the sampled ones. -/
def Obligations.RegistersTrackTheLastRequest : Prop :=
  ∀ (k p : Block) (s t : State), s.toEngine.Tracks k p → step s = .next t →
    (s.acceptsRequest = false → t.toEngine.Tracks k p) ∧
      (s.acceptsRequest = true → t.toEngine.Tracks (unpack s.sample.keyIn) (unpack s.sample.blockIn))

/-- R16: the 23 positions ("[derived: from rules R14, R15 …]") and how a step moves along them. -/
def Obligations.PositionsAdvanceOnePlace : Prop :=
  positionOrder.length = 23 ∧ positionOrder.Nodup ∧
    (∀ (ph : Phase) (rnd : RoundIndex), (ph, rnd) ∈ positionOrder ↔ legalPosition ph rnd = true) ∧
    ∀ s : State, s.atLegalPosition = true → ∃ t, step s = .next t ∧
      (s.sample.rst = true → t.position = (.idle, 0)) ∧
      (s.sample.rst = false → s.resting = true → s.sample.start = false → t.position = s.position) ∧
      (s.sample.rst = false → s.resting = true → s.sample.start = true → t.position = (.keyexp, 1)) ∧
      (s.sample.rst = false → s.resting = false →
        ∃ n, positionOrder[n]? = some s.position ∧ positionOrder[n + 1]? = some t.position)

/-- R18: the outputs. The last clause speaks of the six phases only: a register that holds no phase (R23) is outside
the rule. -/
def Obligations.OutputsAreFunctionsOfTheRegisters : Prop :=
  (∀ e : Engine,
      (e.done = true ↔ e.ph = .done) ∧
      (e.busy = true ↔ e.ph = .keyexp ∨ e.ph = .init ∨ e.ph = .round ∨ e.ph = .final) ∧
      (e.ph = .done → e.ctOut = pack e.st) ∧ (e.ph ≠ .done → e.ctOut = 0) ∧
      ¬(e.done = true ∧ e.busy = true) ∧
      (e.ph ≠ .reserved6 → e.ph ≠ .reserved7 →
        ((e.done = false ∧ e.busy = false) ↔ e.ph = .idle))) ∧
    ∀ (e : Engine) (i : Fin 16), e.ph = .done →
      e.ctOut.extractLsb' (120 - 8 * i.val) 8 = byteAt e.st i

/-! ### Byte orders -/

/-- R34: byte `i` of a 16-byte sequence is bits `127 − 8·i` to `120 − 8·i` of the port, both ways. -/
def Obligations.PortBytesAreMostSignificantFirst : Prop :=
  (∀ (v : BitVec 128) (i : Fin 16), byteAt (unpack v) i = v.extractLsb' (120 - 8 * i.val) 8) ∧
    (∀ (a : Block) (i : Fin 16), (pack a).extractLsb' (120 - 8 * i.val) 8 = byteAt a i) ∧
    (∀ a : Block, unpack (pack a) = a) ∧ (∀ v : BitVec 128, pack (unpack v) = v) ∧
    byteAt (unpack 0x2b7e151628aed2a6abf7158809cf4f3c) 0 = 0x2b

/-- R33: the State is populated column-major, and the two mappings are inverse. -/
def Obligations.BlockFillsTheMatrixColumnMajor : Prop :=
  (∀ (a : Block) (i : Fin 16), ((serialize a)[i.val % 4])[i.val / 4] = byteAt a i) ∧
    (∀ (a : Block) (r c : Fin 4), ((serialize a)[r])[c] = byteAt a ⟨r.val + 4 * c.val, by omega⟩) ∧
    (∀ (m : Matrix4) (r c : Fin 4),
      byteAt (deserialize m) ⟨r.val + 4 * c.val, by omega⟩ = (m[r])[c]) ∧
    (∀ a : Block, deserialize (serialize a) = a) ∧ (∀ m : Matrix4, serialize (deserialize m) = m) ∧
    ∀ (a : Block) (r c : Fin 4), wordByte (wordOf a c) r = matrixAt a r c

/-- R36 (which the spec marks as derived): word `j` of a round key is its bytes `4j .. 4j+3`, and the key is its four
words put together. -/
def Obligations.WordsAreConsecutiveBytes : Prop :=
  (∀ (k : Block) (j b : Fin 4),
      wordByte (wordOf k j) b = byteAt k ⟨4 * j.val + b.val, by omega⟩) ∧
    ∀ k : Block, k = ⟨wordOf k 0, wordOf k 1, wordOf k 2, wordOf k 3⟩

/-! ### The datapath units -/

/-- R76: the definition, bit by bit, the corner cases and the worked example. -/
def Obligations.XtimeMultipliesByX : Prop :=
  (∀ b : Byte, xtime b = if b.getLsbD 7 then (b <<< 1) ^^^ 0x1B else b <<< 1) ∧
    (∀ b : Byte,
      (xtime b).getLsbD 7 = b.getLsbD 6 ∧ (xtime b).getLsbD 6 = b.getLsbD 5 ∧
      (xtime b).getLsbD 5 = b.getLsbD 4 ∧ (xtime b).getLsbD 4 = (b.getLsbD 3 ^^ b.getLsbD 7) ∧
      (xtime b).getLsbD 3 = (b.getLsbD 2 ^^ b.getLsbD 7) ∧ (xtime b).getLsbD 2 = b.getLsbD 1 ∧
      (xtime b).getLsbD 1 = (b.getLsbD 0 ^^ b.getLsbD 7) ∧ (xtime b).getLsbD 0 = b.getLsbD 7) ∧
    xtime 0x00 = 0x00 ∧ xtime 0x7f = 0xfe ∧ xtime 0x80 = 0x1b ∧ xtime 0xff = 0xe5 ∧
    xtime 0x8d = 0x01 ∧ xtime 0x57 = 0xae ∧ xtime 0xae = 0x47

/-- R77, R78, R79: the three multipliers, their corner cases and examples. -/
def Obligations.ConstantMultipliersFromXtime : Prop :=
  (∀ b : Byte, mul1 b = b ∧ mul2 b = xtime b ∧ mul3 b = xtime b ^^^ b) ∧
    mul1 0xd4 = 0xd4 ∧ mul2 0xd4 = 0xb3 ∧ mul2 0x00 = 0x00 ∧ mul2 0x7f = 0xfe ∧
    mul2 0x80 = 0x1b ∧ mul2 0xff = 0xe5 ∧ mul2 0x8d = 0x01 ∧
    mul3 0x00 = 0x00 ∧ mul3 0x01 = 0x03 ∧ mul3 0x80 = 0x9b ∧ mul3 0xff = 0x1a ∧ mul3 0xbf = 0xda

/-- R82 and R81 (both marked as derived): the identities of the field units, the inverse of `xtime`, and the
multipliers as cases of the derived product. -/
def Obligations.FieldIdentitiesHold : Prop :=
  (∀ a b : Byte, xtime (a ^^^ b) = xtime a ^^^ xtime b ∧ mul3 (a ^^^ b) = mul3 a ^^^ mul3 b) ∧
    (∀ b : Byte, mul2 b ^^^ mul3 b = b ∧ mul1 b ^^^ mul2 b ^^^ mul3 b = 0x00) ∧
    Function.Bijective xtime ∧
    (∀ r : Byte, xtime (r.rotateRight 1 ^^^ (if r.getLsbD 0 then 0x0d else 0x00)) = r) ∧
    (∀ b : Byte, gmul b 0x01 = mul1 b ∧ gmul b 0x02 = mul2 b ∧ gmul b 0x03 = mul3 b) ∧
    (List.range 11).map (fun n => xtimeIter n 0x01) =
      [0x01, 0x02, 0x04, 0x08, 0x10, 0x20, 0x40, 0x80, 0x1b, 0x36, 0x6c]

/-- R70: `subst` is the lookup in the 256-entry table, total, with the rule's corner cases and example. -/
def Obligations.SubstReadsTheRom : Prop :=
  sboxTable.length = 256 ∧ (∀ b : Byte, sboxTable[b.toNat]? = some (subst b)) ∧
    subst 0x00 = 0x63 ∧ subst 0xff = 0x16 ∧ (∀ b : Byte, subst b = 0x00 ↔ b = 0x52) ∧
    subst 0x53 = 0xed

/-- R72 ("[derived: by inspection of rule R71]"): the four properties of the table. -/
def Obligations.SubstIsABijectionWithoutFixedPoints : Prop :=
  Function.Bijective subst ∧ (∀ b : Byte, subst b ≠ b) ∧ (∀ b : Byte, subst b ≠ b ^^^ 0xff) ∧
    subst 0x00 ^^^ subst 0x01 ^^^ subst 0x02 ^^^ subst 0x03 = 0x13

/-- R85: byte by byte; the corner cases, that it commutes with every rearrangement of byte positions (marked as
derived), and the worked example. -/
def Obligations.SubBytesSubstitutesEveryByte : Prop :=
  (∀ (s : Block) (i : Fin 16), byteAt (subBytes s) i = subst (byteAt s i)) ∧
    (∀ (s : Block) (r c : Fin 4), matrixAt (subBytes s) r c = subst (matrixAt s r c)) ∧
    subBytes (blockOfBytes fun _ => 0x00) = blockOfBytes (fun _ => 0x63) ∧
    subBytes (blockOfBytes fun _ => 0x52) = blockOfBytes (fun _ => 0x00) ∧
    (∀ (s : Block) (source : Fin 16 → Fin 16),
      subBytes (blockOfBytes fun i => byteAt s (source i)) =
        blockOfBytes fun i => byteAt (subBytes s) (source i)) ∧
    (∀ s : Block, subBytes (shiftRows s) = shiftRows (subBytes s)) ∧
    subBytes (unpack 0x193de3bea0f4e22b9ac68d2ae9f84808) =
      unpack 0xd42711aee0bf98f1b8b45de51e415230

/-- R86: the row rotation in both views (`src[i] = (5·i) mod 16` is marked as derived), its corner cases and examples.
The sum `c + r` is taken modulo 4. -/
def Obligations.ShiftRowsRotatesRowsLeft : Prop :=
  (∀ (s : Block) (r c : Fin 4), matrixAt (shiftRows s) r c = matrixAt s r (c + r)) ∧
    (∀ (s : Block) (i : Fin 16),
      byteAt (shiftRows s) i = byteAt s ⟨(5 * i.val) % 16, by omega⟩) ∧
    (∀ s : Block, (∀ r c d : Fin 4, matrixAt s r c = matrixAt s r d) → shiftRows s = s) ∧
    (∀ s : Block, shiftRows (shiftRows (shiftRows (shiftRows s))) = s) ∧
    (∀ (s : Block) (c : Fin 4), matrixAt (shiftRows s) 0 c = matrixAt s 0 c) ∧
    shiftRows (unpack 0x000102030405060708090a0b0c0d0e0f) =
      unpack 0x00050a0f04090e03080d02070c01060b ∧
    shiftRows (unpack 0xd42711aee0bf98f1b8b45de51e415230) =
      unpack 0xd4bf5d30e0b452aeb84111f11e2798e5

/-- R87: the column is multiplied by the coefficient matrix over GF(2^8); the equations with the units, the corner
cases, linearity and the worked example. -/
def Obligations.MixColumnMultipliesByTheMatrix : Prop :=
  (∀ (c : Word) (i : Fin 4),
      wordByte (mixColumn c) i =
        gmul (wordByte c 0) ((mixMatrix[i])[0]) ^^^ gmul (wordByte c 1) ((mixMatrix[i])[1]) ^^^
          gmul (wordByte c 2) ((mixMatrix[i])[2]) ^^^ gmul (wordByte c 3) ((mixMatrix[i])[3])) ∧
    (∀ c0 c1 c2 c3 : Byte,
      mixColumn ⟨c0, c1, c2, c3⟩ =
        ⟨mul2 c0 ^^^ mul3 c1 ^^^ c2 ^^^ c3, c0 ^^^ mul2 c1 ^^^ mul3 c2 ^^^ c3,
          c0 ^^^ c1 ^^^ mul2 c2 ^^^ mul3 c3, mul3 c0 ^^^ c1 ^^^ c2 ^^^ mul2 c3⟩) ∧
    (∀ v : Byte, mixColumn ⟨v, v, v, v⟩ = ⟨v, v, v, v⟩) ∧
    mixColumn ⟨0x01, 0x00, 0x00, 0x00⟩ = ⟨0x02, 0x01, 0x01, 0x03⟩ ∧
    mixColumn ⟨0x00, 0x01, 0x00, 0x00⟩ = ⟨0x03, 0x02, 0x01, 0x01⟩ ∧
    mixColumn ⟨0x00, 0x00, 0x01, 0x00⟩ = ⟨0x01, 0x03, 0x02, 0x01⟩ ∧
    mixColumn ⟨0x00, 0x00, 0x00, 0x01⟩ = ⟨0x01, 0x01, 0x03, 0x02⟩ ∧
    (∀ a b : Word, mixColumn (xorWord a b) = xorWord (mixColumn a) (mixColumn b)) ∧
    mixColumn ⟨0xd4, 0xbf, 0x5d, 0x30⟩ = ⟨0x04, 0x66, 0x81, 0xe5⟩

/-- R88: one column at a time, no byte of one column influencing another; equal bytes are kept; the worked example. -/
def Obligations.MixColumnsActsOnEachColumn : Prop :=
  (∀ (s : Block) (c : Fin 4), wordOf (mixColumns s) c = mixColumn (wordOf s c)) ∧
    (∀ (s s' : Block) (c : Fin 4), (∀ r, matrixAt s r c = matrixAt s' r c) →
      ∀ r, matrixAt (mixColumns s) r c = matrixAt (mixColumns s') r c) ∧
    (∀ v : Byte, mixColumns (blockOfBytes fun _ => v) = blockOfBytes fun _ => v) ∧
    mixColumns (unpack 0xd4bf5d30e0b452aeb84111f11e2798e5) =
      unpack 0x046681e5e0cb199a48f8d37a2806264c

/-- R89: byte by byte in both views, the corner cases and the worked example. -/
def Obligations.AddRoundKeyXorsEveryByte : Prop :=
  (∀ (s k : Block) (i : Fin 16), byteAt (addRoundKey s k) i = byteAt s i ^^^ byteAt k i) ∧
    (∀ (s k : Block) (r c : Fin 4),
      matrixAt (addRoundKey s k) r c = matrixAt s r c ^^^ byteAt k ⟨r.val + 4 * c.val, by omega⟩) ∧
    (∀ s : Block, addRoundKey s Block.zero = s) ∧
    (∀ s k : Block, addRoundKey (addRoundKey s k) k = s) ∧
    (∀ s : Block, addRoundKey s s = Block.zero) ∧
    addRoundKey (unpack 0x3243f6a8885a308d313198a2e0370734)
        (unpack 0x2b7e151628aed2a6abf7158809cf4f3c) =
      unpack 0x193de3bea0f4e22b9ac68d2ae9f84808

/-- R90, R91: the order of the units in a full round and in the final round, and the worked examples. -/
def Obligations.RoundFunctionsComposeTheUnits : Prop :=
  (∀ s k : Block, roundFn s k = addRoundKey (mixColumns (shiftRows (subBytes s))) k) ∧
    (∀ s k : Block, finalFn s k = addRoundKey (shiftRows (subBytes s)) k) ∧
    roundFn (unpack 0x193de3bea0f4e22b9ac68d2ae9f84808)
        (unpack 0xa0fafe1788542cb123a339392a6c7605) =
      unpack 0xa49c7ff2689f352b6b5bea43026a5049 ∧
    finalFn (unpack 0xeb40f21e592e38848ba113e71bc342d2)
        (unpack 0xd014f9a8c9ee2589e13f0cc8b6630ca6) =
      unpack 0x3925841d02dc09fbdc118597196a0b32

/-- R92 (marked as derived, for MixColumns as general knowledge): each unit is a bijection on states, for a fixed key.
-/
def Obligations.TransformationsAreBijections : Prop :=
  Function.Bijective subBytes ∧ Function.Bijective shiftRows ∧ Function.Bijective mixColumns ∧
    ∀ k : Block, Function.Bijective (fun s => addRoundKey s k) ∧
      Function.Bijective (fun s => roundFn s k) ∧ Function.Bijective (fun s => finalFn s k)

/-! ### The key schedule -/

/-- R100: the recurrence, the ten values (marked as derived) and the bounded domain. -/
def Obligations.RconIsTheXtimeSequence : Prop :=
  rcon 1 = some 0x01 ∧ (∀ n, 2 ≤ n → n ≤ 10 → rcon n = (rcon (n - 1)).map xtime) ∧
    rcon 2 = some 0x02 ∧ rcon 3 = some 0x04 ∧ rcon 4 = some 0x08 ∧ rcon 5 = some 0x10 ∧
    rcon 6 = some 0x20 ∧ rcon 7 = some 0x40 ∧ rcon 8 = some 0x80 ∧ rcon 9 = some 0x1b ∧
    rcon 10 = some 0x36 ∧ ∀ n, n = 0 ∨ 11 ≤ n → rcon n = none

/-- R102, R103, R104: the word units, their corner cases and examples. -/
def Obligations.WordUnitsRotateXorSubstitute : Prop :=
  (∀ b0 b1 b2 b3 : Byte, rotWord ⟨b0, b1, b2, b3⟩ = ⟨b1, b2, b3, b0⟩) ∧
    (∀ v : Byte, rotWord ⟨v, v, v, v⟩ = ⟨v, v, v, v⟩) ∧
    (∀ w : Word, rotWord (rotWord (rotWord (rotWord w))) = w) ∧
    rotWord (unpackWord 0x09cf4f3c) = unpackWord 0xcf4f3c09 ∧
    (∀ (a b : Word) (i : Fin 4), wordByte (xorWord a b) i = wordByte a i ^^^ wordByte b i) ∧
    xorWord (unpackWord 0x8b84eb01) (unpackWord 0x2b7e1516) = unpackWord 0xa0fafe17 ∧
    (∀ (w : Word) (i : Fin 4), wordByte (subWord w) i = subst (wordByte w i)) ∧
    subWord (unpackWord 0x00000000) = unpackWord 0x63636363 ∧
    subWord (unpackWord 0xcf4f3c09) = unpackWord 0x8a84eb01

/-- R105: rotate, substitute, XOR byte 0 with the constant; the corner case and the worked example. -/
def Obligations.GTransformRotatesSubstitutesAddsTheConstant : Prop :=
  (∀ (w : Word) (rc : Byte),
      gTransform w rc = ⟨subst w.b1 ^^^ rc, subst w.b2, subst w.b3, subst w.b0⟩) ∧
    (∀ w : Word, subWord (rotWord w) = rotWord (subWord w)) ∧
    gTransform (unpackWord 0x00000000) 0x01 = unpackWord 0x62636363 ∧
    gTransform (unpackWord 0x09cf4f3c) 0x01 = unpackWord 0x8b84eb01

/-- R106: word by word and byte by byte (marked as derived), the corner case and the worked example. -/
def Obligations.NextRoundKeyChainsTheWords : Prop :=
  (∀ (k : Block) (rc : Byte),
      wordOf (nextRoundKey k rc) 0 = xorWord (gTransform (wordOf k 3) rc) (wordOf k 0) ∧
      wordOf (nextRoundKey k rc) 1 = xorWord (wordOf (nextRoundKey k rc) 0) (wordOf k 1) ∧
      wordOf (nextRoundKey k rc) 2 = xorWord (wordOf (nextRoundKey k rc) 1) (wordOf k 2) ∧
      wordOf (nextRoundKey k rc) 3 = xorWord (wordOf (nextRoundKey k rc) 2) (wordOf k 3)) ∧
    (∀ (k : Block) (rc : Byte),
      byteAt (nextRoundKey k rc) 0 = subst (byteAt k 13) ^^^ rc ^^^ byteAt k 0 ∧
      byteAt (nextRoundKey k rc) 1 = subst (byteAt k 14) ^^^ byteAt k 1 ∧
      byteAt (nextRoundKey k rc) 2 = subst (byteAt k 15) ^^^ byteAt k 2 ∧
      byteAt (nextRoundKey k rc) 3 = subst (byteAt k 12) ^^^ byteAt k 3) ∧
    (∀ (k : Block) (rc : Byte) (i : Fin 16), 4 ≤ i.val →
      byteAt (nextRoundKey k rc) i =
        byteAt (nextRoundKey k rc) ⟨i.val - 4, by omega⟩ ^^^ byteAt k i) ∧
    nextRoundKey Block.zero 0x01 = unpack 0x62636363626363636263636362636363 ∧
    nextRoundKey (unpack 0x2b7e151628aed2a6abf7158809cf4f3c) 0x01 =
      unpack 0xa0fafe1788542cb123a339392a6c7605

/-- R107: round key 0 is the key, each further one comes from the one before and its constant, and the same in the flat
word numbering W0..W43 (marked as derived). -/
def Obligations.ExpandKeyFollowsTheRecurrence : Prop :=
  (∀ k : Block, (expandKey k)[0] = k) ∧
    (∀ (k : Block) (r : Fin 11), 1 ≤ r.val →
      ∃ rc, rcon r.val = some rc ∧
        (expandKey k)[r] = nextRoundKey ((expandKey k)[r.val - 1]) rc) ∧
    ∀ (k : Block) (i : Fin 44), 4 ≤ i.val →
      (i.val % 4 = 0 → ∃ rc, rcon (i.val / 4) = some rc ∧
        scheduleWord (expandKey k) i =
          xorWord (scheduleWord (expandKey k) ⟨i.val - 4, by omega⟩)
            (gTransform (scheduleWord (expandKey k) ⟨i.val - 1, by omega⟩) rc)) ∧
      (i.val % 4 ≠ 0 →
        scheduleWord (expandKey k) i =
          xorWord (scheduleWord (expandKey k) ⟨i.val - 4, by omega⟩)
            (scheduleWord (expandKey k) ⟨i.val - 1, by omega⟩))

/-! ### The function -/

/-- R115: `Initial`, `Round[1..9]`, `FinalRound[10]`, `Done`. -/
def Obligations.CipherIsTheRoundPipeline : Prop :=
  ∀ (p : Block) (rk : Vector Block 11),
    afterRound p rk 0 = addRoundKey p rk[0] ∧
      (∀ r : Fin 11, 1 ≤ r.val → r.val ≤ 9 →
        afterRound p rk r.val =
          addRoundKey (mixColumns (shiftRows (subBytes (afterRound p rk (r.val - 1))))) rk[r]) ∧
      cipher p rk = addRoundKey (shiftRows (subBytes (afterRound p rk 9))) rk[10]

/-- R116: "for each fixed K it is injective in P" (marked as derived), so that no single-bit flip of the plaintext
leaves the ciphertext unchanged. -/
def Obligations.EncryptIsInjectiveInTheBlock : Prop :=
  ∀ k : Block, Function.Injective (encrypt k)

/-- R116 and 95_test_vectors.md section 7: known ciphertexts, the first two the source's. -/
def Obligations.EncryptGivesTheKnownCiphertexts : Prop :=
  encrypt (unpack 0x2b7e151628aed2a6abf7158809cf4f3c) (unpack 0x3243f6a8885a308d313198a2e0370734) =
      unpack 0x3925841d02dc09fbdc118597196a0b32 ∧
    encrypt (unpack 0x5468617473206d79204b756e67204675)
        (unpack 0x54776f204f6e65204e696e652054776f) =
      unpack 0x29c3505f571420f6402299b31a02d73a ∧
    encrypt (unpack 0x000102030405060708090a0b0c0d0e0f)
        (unpack 0x00112233445566778899aabbccddeeff) =
      unpack 0x69c4e0d86a7b0430d8cdb78070b4c55a

/-! ### The operations: each completes, with its result and its frame -/

/-- R118: every word with `rst = 1` is RESET, with `start` and an illegal position too; RESET writes every register, and
repeating it changes nothing more. Beside the rule, its frame: the host's side (log entry 1) is not touched. -/
def Obligations.ResetWritesEveryRegister : Prop :=
  ∀ (start : Bool) (ph : Phase) (rnd : RoundIndex) (s : State),
    encode (.reset start ph rnd) = 0b1#1 ++ BitVec.ofBool start ++ ph.code ++ rnd ∧
      decode (controlWord true start ph rnd) = .ok (.reset start ph rnd) ∧
      ∃ t, exec (.reset start ph rnd) s = .next t ∧
        t.ph = .idle ∧ t.rnd = 0 ∧ t.rc = 0x01 ∧ (∀ i : Fin 16, byteAt t.st i = 0x00) ∧
        (∀ (j : Fin 11) (i : Fin 16), byteAt t.rk[j] i = 0x00) ∧
        t.done = false ∧ t.busy = false ∧ t.ctOut = 0 ∧
        t.inputs = s.inputs ∧ t.edge = s.edge ∧ exec (.reset start ph rnd) t = .next t

/-- R120: both forms of LOAD take the sampled key and block and start the key expansion; entries 1 to 10 of the
round-key store and the host's side are unchanged. -/
def Obligations.LoadTakesKeyAndBlock : Prop :=
  encode (.loadIdle 0) = 0b010000000#9 ∧ encode (.loadDone 0) = 0b011010000#9 ∧
    ∀ (i : Instr) (s : State), i = .loadIdle 0 ∨ i = .loadDone 0 →
      ∃ t, exec i s = .next t ∧
        t.rk[0] = unpack s.sample.keyIn ∧ t.st = unpack s.sample.blockIn ∧ t.rc = 0x01 ∧
        t.rnd = 1 ∧ t.ph = .keyexp ∧ (∀ j : Fin 11, j ≠ 0 → t.rk[j] = s.rk[j]) ∧
        t.inputs = s.inputs ∧ t.edge = s.edge ∧
        t.busy = true ∧ t.done = false ∧ t.ctOut = 0

/-- R121: KEXP at `RND = n`, 1 to 10, whatever `start` is. It writes `RK[n]`, `RND`, and `RC` if `n ≤ 9` or `PH` if
`n = 10`; `ST`, the other entries and the host's side are unchanged. -/
def Obligations.KexpWritesOneRoundKey : Prop :=
  ∀ (start : Bool) (n : Nat) (h1 : 1 ≤ n) (h10 : n ≤ 10) (s : State),
    encode (.kexp start (BitVec.ofNat 4 n)) =
        0b0#1 ++ BitVec.ofBool start ++ 0b001#3 ++ BitVec.ofNat 4 n ∧
      ∃ t, exec (.kexp start (BitVec.ofNat 4 n)) s = .next t ∧
        t.rk[n] = nextRoundKey (s.rk[n - 1]) s.rc ∧
        (∀ j : Fin 11, j.val ≠ n → t.rk[j] = s.rk[j]) ∧ t.st = s.st ∧
        (n ≤ 9 → t.rc = xtime s.rc ∧ t.rnd = BitVec.ofNat 4 (n + 1) ∧ t.ph = s.ph) ∧
        (n = 10 → t.rc = s.rc ∧ t.rnd = 0 ∧ t.ph = .init) ∧
        t.inputs = s.inputs ∧ t.edge = s.edge

/-- R122: INIT, whatever `start` is. It writes `ST`, `RND` and `PH`; the rest is unchanged. With the zero key `ST` keeps
its value. -/
def Obligations.InitAddsTheFirstRoundKey : Prop :=
  ∀ (start : Bool) (s : State),
    encode (.init start 0) = 0b0#1 ++ BitVec.ofBool start ++ 0b0100000#7 ∧
      ∃ t, exec (.init start 0) s = .next t ∧
        t.st = addRoundKey s.st s.rk[0] ∧ t.rnd = 1 ∧ t.ph = .round ∧
        t.rc = s.rc ∧ t.rk = s.rk ∧ t.inputs = s.inputs ∧ t.edge = s.edge ∧
        (s.rk[0] = Block.zero → t.st = s.st)

/-- R123: ROUND at `RND = n`, 1 to 9, whatever `start` is. It writes `ST`, `RND`, and `PH` if `n = 9`; the rest is
unchanged. -/
def Obligations.RoundAppliesOneFullRound : Prop :=
  ∀ (start : Bool) (n : Nat) (h1 : 1 ≤ n) (h9 : n ≤ 9) (s : State),
    encode (.round start (BitVec.ofNat 4 n)) =
        0b0#1 ++ BitVec.ofBool start ++ 0b011#3 ++ BitVec.ofNat 4 n ∧
      ∃ t, exec (.round start (BitVec.ofNat 4 n)) s = .next t ∧
        t.st = addRoundKey (mixColumns (shiftRows (subBytes s.st))) s.rk[n] ∧
        t.rnd = BitVec.ofNat 4 (n + 1) ∧
        (n = 9 → t.ph = .final ∧ t.rnd = 10) ∧ (n ≠ 9 → t.ph = s.ph) ∧
        t.rc = s.rc ∧ t.rk = s.rk ∧ t.inputs = s.inputs ∧ t.edge = s.edge

/-- R124: FINAL, whatever `start` is. It writes `ST`, `RND` and `PH`; the rest is unchanged; after it the ciphertext
is on `ct_out`. -/
def Obligations.FinalAppliesTheLastRound : Prop :=
  ∀ (start : Bool) (s : State),
    encode (.final start 10) = 0b0#1 ++ BitVec.ofBool start ++ 0b1001010#7 ∧
      ∃ t, exec (.final start 10) s = .next t ∧
        t.st = addRoundKey (shiftRows (subBytes s.st)) s.rk[10] ∧ t.rnd = 0 ∧ t.ph = .done ∧
        t.rc = s.rc ∧ t.rk = s.rk ∧ t.inputs = s.inputs ∧ t.edge = s.edge ∧
        t.done = true ∧ t.ctOut = pack t.st

/-! ### Edges, encryptions and the host -/

/-- R155: an edge with `rst = 1` leaves the reset values, from any registers and whatever the other inputs; one edge is
enough and more edges repeat it. -/
def Obligations.ResetEdgeReachesTheResetState : Prop :=
  ∀ (n : Nat) (s : State), (∀ k, k ≤ n → (s.sampleAt k).rst = true) →
    ∃ t, runSteps (n + 1) s = .next t ∧
      t.ph = .idle ∧ t.rnd = 0 ∧ t.rc = 0x01 ∧ t.st = Block.zero ∧
      (∀ j : Fin 11, t.rk[j] = Block.zero) ∧ t.done = false ∧ t.busy = false ∧ t.ctOut = 0

/-- R119: without a request the operation in IDLE is IDLE; it changes nothing at all; and the engine stays in IDLE for
any number of edges, whatever is on the data ports. -/
def Obligations.IdleWaitsForStart : Prop :=
  encode (.idle 0) = 0b000000000#9 ∧ (∀ s : State, exec (.idle 0) s = .next s) ∧
    (∀ s : State, s.ph = .idle → s.rnd = 0 → s.sample.rst = false → s.sample.start = false →
      decode s.cw = .ok (.idle 0)) ∧
    ∀ (n : Nat) (s : State), s.ph = .idle → s.rnd = 0 →
      (∀ k, k < n → (s.sampleAt k).rst = false ∧ (s.sampleAt k).start = false) →
      ∃ t, runSteps n s = .next t ∧ t.toEngine = s.toEngine ∧
        t.done = false ∧ t.busy = false ∧ t.ctOut = 0

/-- R125: without a request the operation in DONE is HOLD; it changes nothing at all; the ciphertext is held for as
long as `start` and `rst` stay 0; with `start = 1` in DONE the operation is LOAD. -/
def Obligations.HoldKeepsTheCiphertext : Prop :=
  encode (.hold 0) = 0b001010000#9 ∧ (∀ s : State, exec (.hold 0) s = .next s) ∧
    (∀ s : State, s.ph = .done → s.rnd = 0 → s.sample.rst = false → s.sample.start = false →
      decode s.cw = .ok (.hold 0)) ∧
    (∀ (n : Nat) (s : State), s.ph = .done → s.rnd = 0 →
      (∀ k, k < n → (s.sampleAt k).rst = false ∧ (s.sampleAt k).start = false) →
      ∃ t, runSteps n s = .next t ∧ t.toEngine = s.toEngine ∧ t.done = true ∧
        t.ctOut = pack s.st) ∧
    ∀ s : State, s.ph = .done → s.rnd = 0 → s.sample.rst = false → s.sample.start = true →
      decode s.cw = .ok (.loadDone 0)

/-- R164 (and R126): while the engine is busy no port but `rst` can alter a register: `start`, `key_in` and `block_in`
have no effect on the next registers. -/
def Obligations.RequestsWhileBusyAreIgnored : Prop :=
  ∀ s s' t : State, s.toEngine = s'.toEngine → s.busy = true → s.sample.rst = s'.sample.rst →
    step s = .next t → ∃ t', step s' = .next t' ∧ t'.toEngine = t.toEngine

/-- R12 ("no op writes `RK[0]`", marked as derived): no step of an encryption writes the key. -/
def Obligations.KeyIsImmutableWhileBusy : Prop :=
  ∀ s t : State, s.busy = true → s.sample.rst = false → step s = .next t → t.rk[0] = s.rk[0]

/-- R127: the schedule of one encryption: after edge `t + k` the engine is at the scheduled position and its registers
hold what the operations of the sampled key and block have written. -/
def Obligations.EncryptionFollowsTheSchedule : Prop :=
  ∀ s : State, s.acceptsRequest = true → s.noResetFrom 1 21 →
    ∀ k, k ≤ 21 → ∃ t, runSteps (k + 1) s = .next t ∧ t.position = scheduledPosition k ∧
      t.toEngine.Tracks (unpack s.sample.keyIn) (unpack s.sample.blockIn)

/-- R130 (which the spec marks as derived, and calls the theorem a model should prove): the clocked engine computes the
function. -/
def Obligations.EngineComputesEncrypt : Prop :=
  ∀ (s : State) (k p : Block), s.acceptsRequest = true →
    s.sample.keyIn = pack k → s.sample.blockIn = pack p → s.noResetFrom 1 21 →
      (∃ t, runSteps 22 s = .next t ∧ t.ph = .done ∧ t.done = true ∧ t.busy = false ∧
        t.st = encrypt k p ∧ t.ctOut = pack (encrypt k p) ∧ t.rk = expandKey k ∧
        t.rc = 0x36 ∧ t.rnd = 0) ∧
      ∀ n, 1 ≤ n → n ≤ 21 → ∃ u, runSteps n s = .next u ∧ u.done = false ∧ u.busy = true ∧
        u.ctOut = 0

/-- R166 (and R129): positions, `done` and `busy` at every edge are functions of the position and of `rst` and `start`
alone. -/
def Obligations.ControlIsDataIndependent : Prop :=
  ∀ (n : Nat) (s s' t : State), s.position = s'.position →
    (∀ k, k < n → (s.sampleAt k).rst = (s'.sampleAt k).rst ∧
      (s.sampleAt k).start = (s'.sampleAt k).start) →
    runSteps n s = .next t →
      ∃ t', runSteps n s' = .next t' ∧ t'.position = t.position ∧ t'.done = t.done ∧
        t'.busy = t.busy

/-- R159: `key_in` and `block_in` have an effect only at an edge at which a request is accepted. -/
def Obligations.DataPortsMatterOnlyAtLoad : Prop :=
  ∀ (n : Nat) (s s' t : State), s.toEngine = s'.toEngine →
    (∀ k, k < n → (s.sampleAt k).rst = (s'.sampleAt k).rst ∧
      (s.sampleAt k).start = (s'.sampleAt k).start) →
    (∀ k u, k < n → runSteps k s = .next u → u.acceptsRequest = true →
      (s.sampleAt k).keyIn = (s'.sampleAt k).keyIn ∧
      (s.sampleAt k).blockIn = (s'.sampleAt k).blockIn) →
    runSteps n s = .next t → ∃ t', runSteps n s' = .next t' ∧ t'.toEngine = t.toEngine

/-- R167: from any busy position DONE is reached within 21 edges if `rst` stays 0, and IDLE in one edge if `rst` is 1.
-/
def Obligations.BusyEngineReachesDone : Prop :=
  ∀ s : State, s.atLegalPosition = true → s.busy = true →
    (s.noResetFrom 0 20 → ∃ n t, n ≤ 21 ∧ runSteps n s = .next t ∧ t.ph = .done) ∧
      (s.sample.rst = true → ∃ t, step s = .next t ∧ t.position = (.idle, 0))

/-- R132 (marked as derived): with `start` held at 1 the engine encrypts every 22 edges, whatever the data ports hold
at the accepting edges, and is done for one clock period of each 22. -/
def Obligations.HeldStartEncryptsEvery22Edges : Prop :=
  ∀ (m : Nat) (s : State), s.atLegalPosition = true → s.resting = true →
    (∀ k, k < 22 * (m + 1) → (s.sampleAt k).rst = false ∧ (s.sampleAt k).start = true) →
      (∃ t, runSteps (22 * (m + 1)) s = .next t ∧ t.done = true ∧
        t.ctOut = pack (encrypt (unpack (s.sampleAt (22 * m)).keyIn)
          (unpack (s.sampleAt (22 * m)).blockIn))) ∧
      ∀ n, 22 * m < n → n < 22 * (m + 1) → ∃ u, runSteps n s = .next u ∧ u.done = false

/-- R25: two encryptions with equal key and block leave equal `ST`, `RK`, `RC` and equal `ct_out`, whatever the
registers held before. -/
def Obligations.EqualRequestsLeaveEqualRegisters : Prop :=
  ∀ s s' : State, s.acceptsRequest = true → s'.acceptsRequest = true →
    s.sample.keyIn = s'.sample.keyIn → s.sample.blockIn = s'.sample.blockIn →
    s.noResetFrom 1 21 → s'.noResetFrom 1 21 →
      ∃ t t', runSteps 22 s = .next t ∧ runSteps 22 s' = .next t' ∧ t.st = t'.st ∧
        t.rk = t'.rk ∧ t.rc = t'.rc ∧ t.ctOut = t'.ctOut

/-! ### The boundary adapter -/

/-- R140, R141, R143: a wrong length is one error, the key's first, with its code, the required and the actual length. The
last two clauses are R144 in the model's own form (log entry 5, the model's choice): the call ends in the fault with no
state answered, whatever the engine's state. -/
def Obligations.AdapterRejectsWrongLengths : Prop :=
  ∀ key plaintext : List Byte,
    (key.length ≠ 16 →
      encryptBytes key plaintext = .error (.invalidKeyLength 16 key.length) ∧
        (Fault.invalidKeyLength 16 key.length).code = 1) ∧
    (key.length = 16 → plaintext.length ≠ 16 →
      encryptBytes key plaintext = .error (.invalidBlockLength 16 plaintext.length) ∧
        (Fault.invalidBlockLength 16 plaintext.length).code = 2) ∧
    ∀ s : State,
      (key.length ≠ 16 → adapterCall key plaintext s = .fault (.invalidKeyLength 16 key.length)) ∧
      (key.length = 16 → plaintext.length ≠ 16 →
        adapterCall key plaintext s = .fault (.invalidBlockLength 16 plaintext.length))

/-- R141: on two 16-byte inputs the adapter, driving the engine from any legal position, brings it to DONE with the
ciphertext of the function on `ct_out`. That it waits by putting `TICK` on the ports, and that it leaves what other stimulus
was placed as it was, is the model's choice (log entry 5). -/
def Obligations.AdapterReturnsTheCiphertext : Prop :=
  ∀ (key plaintext : List Byte) (s : State), key.length = 16 → plaintext.length = 16 →
    s.atLegalPosition = true →
      ∃ t, adapterCall key plaintext s = .next t ∧ t.done = true ∧ t.inputs = s.inputs ∧
        t.ctOut = pack (encrypt (blockOfList key) (blockOfList plaintext)) ∧
        encryptBytes key plaintext = .ok (bytesOf (unpack t.ctOut))

/-! ### The stimulus notation -/

/-- R57: `WAITDONE` is `TICK` repeated until `done = 1`: no line in DONE; from a busy position that many lines, at most 21,
after which `done = 1` for the first time; 21 after an accepted `START`. In IDLE no number of lines is enough: that there is
then no expansion is the model's choice (log entry 13). -/
def Obligations.WaitDoneTicksUntilDone : Prop :=
  (∀ s : State, s.ph = .done → waitDoneLines s = some []) ∧
    (∀ s : State, s.atLegalPosition = true → s.busy = true →
      ∃ k t, 1 ≤ k ∧ k ≤ 21 ∧ waitDoneLines s = some (tickLines k) ∧
        runProgram [.waitDone] s = some t ∧ runLines (tickLines k) s = some t ∧ t.done = true ∧
        ∀ j, j < k → ∃ u, runLines (tickLines j) s = some u ∧ u.done = false) ∧
    (∀ (s : State) (k p : BitVec 128), s.atLegalPosition = true → s.resting = true →
      ∃ t, runLines [.start k p] s = some t ∧ waitDoneLines t = some (tickLines 21)) ∧
    ∀ s : State, s.ph = .idle → s.rnd = 0 →
      waitDoneLines s = none ∧
        ∀ n, ∃ t, runLines (tickLines n) s = some t ∧ t.done = false
end

