-- ==== Sys2Proof/Laws/ByteOrder.lean ====
section
/-! SUPPORT. Slices of concatenations, and what the port mapping of spec/20_memory.md R34 keeps. -/

namespace Sys2Proof.Laws
open Sys2Proof.Machine

/-- A slice above the lower part of a concatenation is a slice of the upper part. -/
theorem slice_upper {m n : Nat} (x : BitVec m) (y : BitVec n) (k l : Nat) (h : n ≤ k) :
    (x ++ y).extractLsb' k l = x.extractLsb' (k - n) l := by
  ext i hi
  have above : ¬(k + i < n) := by omega
  have shift : k + i - n = k - n + i := by omega
  simp [BitVec.getLsbD_append, above, shift]

/-- A slice inside the lower part of a concatenation is a slice of that part. -/
theorem slice_lower {m n : Nat} (x : BitVec m) (y : BitVec n) (k l : Nat) (h : k + l ≤ n) :
    (x ++ y).extractLsb' k l = y.extractLsb' k l := by
  ext i hi
  have below : k + i < n := by omega
  simp [BitVec.getLsbD_append, below]

/-- A slice of a slice. -/
theorem slice_slice {n : Nat} (v : BitVec n) (a b c d : Nat) (h : c + d ≤ b) :
    (v.extractLsb' a b).extractLsb' c d = v.extractLsb' (a + c) d := by
  ext i hi
  have inside : c + i < b := by omega
  simp [inside, Nat.add_assoc]

/-- Two slices that meet, put together. -/
theorem slice_append {n : Nat} (v : BitVec n) (b c d : Nat) :
    v.extractLsb' (b + c) d ++ v.extractLsb' b c = v.extractLsb' b (d + c) := by
  apply BitVec.eq_of_getLsbD_eq
  intro i hi
  rw [BitVec.getLsbD_append]
  by_cases low : i < c
  · simp [low, hi]
  · have place : b + c + (i - c) = b + i := by omega
    have room : i - c < d := by omega
    simp [low, hi, place, room]

/-- The whole of a vector, as a slice. -/
theorem slice_whole {n : Nat} (v : BitVec n) : v.extractLsb' 0 n = v := by
  ext i hi
  simp

/-- R34, one word: its bytes are read back from its 32 bits. -/
@[simp] theorem unpackWord_packWord (w : Word) : unpackWord (packWord w) = w := by
  have h0 : (packWord w).extractLsb' 24 8 = w.b0 :=
    (slice_upper (w.b0 ++ w.b1 ++ w.b2) w.b3 24 8 (by decide)).trans
      ((slice_upper (w.b0 ++ w.b1) w.b2 16 8 (by decide)).trans
        ((slice_upper w.b0 w.b1 8 8 (by decide)).trans (slice_whole w.b0)))
  have h1 : (packWord w).extractLsb' 16 8 = w.b1 :=
    (slice_upper (w.b0 ++ w.b1 ++ w.b2) w.b3 16 8 (by decide)).trans
      ((slice_upper (w.b0 ++ w.b1) w.b2 8 8 (by decide)).trans
        ((slice_lower w.b0 w.b1 0 8 (by decide)).trans (slice_whole w.b1)))
  have h2 : (packWord w).extractLsb' 8 8 = w.b2 :=
    (slice_upper (w.b0 ++ w.b1 ++ w.b2) w.b3 8 8 (by decide)).trans
      ((slice_lower (w.b0 ++ w.b1) w.b2 0 8 (by decide)).trans (slice_whole w.b2))
  have h3 : (packWord w).extractLsb' 0 8 = w.b3 :=
    (slice_lower (w.b0 ++ w.b1 ++ w.b2) w.b3 0 8 (by decide)).trans (slice_whole w.b3)
  simp only [unpackWord, h0, h1, h2, h3]

/-- R34, one word: the 32 bits are read back from its bytes. -/
@[simp] theorem packWord_unpackWord (v : BitVec 32) : packWord (unpackWord v) = v := by
  have h01 : v.extractLsb' 24 8 ++ v.extractLsb' 16 8 = v.extractLsb' 16 16 :=
    slice_append v 16 8 8
  have h02 : v.extractLsb' 16 16 ++ v.extractLsb' 8 8 = v.extractLsb' 8 24 :=
    slice_append v 8 8 16
  have h03 : v.extractLsb' 8 24 ++ v.extractLsb' 0 8 = v.extractLsb' 0 32 :=
    slice_append v 0 8 24
  show v.extractLsb' 24 8 ++ v.extractLsb' 16 8 ++ v.extractLsb' 8 8 ++ v.extractLsb' 0 8 = v
  rw [h01]
  show v.extractLsb' 16 16 ++ v.extractLsb' 8 8 ++ v.extractLsb' 0 8 = v
  rw [h02]
  show v.extractLsb' 8 24 ++ v.extractLsb' 0 8 = v
  rw [h03]
  exact slice_whole v

/-- R34: the four words of a block are the four 32-bit slices of its port value, the first word highest. -/
theorem pack_slices (a : Block) :
    (pack a).extractLsb' 96 32 = packWord a.w0 ∧ (pack a).extractLsb' 64 32 = packWord a.w1 ∧
      (pack a).extractLsb' 32 32 = packWord a.w2 ∧ (pack a).extractLsb' 0 32 = packWord a.w3 :=
  ⟨(slice_upper (packWord a.w0 ++ packWord a.w1 ++ packWord a.w2) (packWord a.w3) 96 32
      (by decide)).trans
      ((slice_upper (packWord a.w0 ++ packWord a.w1) (packWord a.w2) 64 32 (by decide)).trans
        ((slice_upper (packWord a.w0) (packWord a.w1) 32 32 (by decide)).trans
          (slice_whole (packWord a.w0)))),
    (slice_upper (packWord a.w0 ++ packWord a.w1 ++ packWord a.w2) (packWord a.w3) 64 32
      (by decide)).trans
      ((slice_upper (packWord a.w0 ++ packWord a.w1) (packWord a.w2) 32 32 (by decide)).trans
        ((slice_lower (packWord a.w0) (packWord a.w1) 0 32 (by decide)).trans
          (slice_whole (packWord a.w1)))),
    (slice_upper (packWord a.w0 ++ packWord a.w1 ++ packWord a.w2) (packWord a.w3) 32 32
      (by decide)).trans
      ((slice_lower (packWord a.w0 ++ packWord a.w1) (packWord a.w2) 0 32 (by decide)).trans
        (slice_whole (packWord a.w2))),
    (slice_lower (packWord a.w0 ++ packWord a.w1 ++ packWord a.w2) (packWord a.w3) 0 32
      (by decide)).trans (slice_whole (packWord a.w3))⟩

end Sys2Proof.Laws
end

