-- ==== Sys2Proof/Laws/Datapath.lean ====
section
/-! SUPPORT. Small lemmas about the datapath units, cited instead of unfolding them. -/

namespace Sys2Proof.Laws
open Sys2Proof.Machine

/-- Two words with equal bytes are equal. -/
theorem word_ext {a b : Word} (h0 : a.b0 = b.b0) (h1 : a.b1 = b.b1) (h2 : a.b2 = b.b2)
    (h3 : a.b3 = b.b3) : a = b := by
  cases a; cases b; simp_all

/-- Two blocks with equal words are equal. -/
theorem block_ext {a b : Block} (h0 : a.w0 = b.w0) (h1 : a.w1 = b.w1) (h2 : a.w2 = b.w2)
    (h3 : a.w3 = b.w3) : a = b := by
  cases a; cases b; simp_all

/-- Two blocks with the same sixteen bytes are equal. -/
theorem block_ext_bytes {a b : Block} (h : ∀ i, byteAt a i = byteAt b i) : a = b := by
  apply block_ext <;> apply word_ext
  · exact h 0
  · exact h 1
  · exact h 2
  · exact h 3
  · exact h 4
  · exact h 5
  · exact h 6
  · exact h 7
  · exact h 8
  · exact h 9
  · exact h 10
  · exact h 11
  · exact h 12
  · exact h 13
  · exact h 14
  · exact h 15

/-- R71: the ROM has 256 entries. -/
theorem sboxTable_length : sboxTable.length = 256 := by decide +kernel

/-- The bytes of a block built from its bytes. -/
theorem byteAt_blockOfBytes (f : Fin 16 → Byte) (i : Fin 16) : byteAt (blockOfBytes f) i = f i := by
  fin_cases i <;> rfl

/-- A block is built from its own bytes. -/
@[simp] theorem blockOfBytes_byteAt (a : Block) : blockOfBytes (byteAt a) = a :=
  block_ext_bytes fun i => byteAt_blockOfBytes _ i

/-- The list of a block's bytes has sixteen entries. -/
@[simp] theorem bytesOf_length (a : Block) : (bytesOf a).length = 16 := rfl

/-- A block is read back from the list of its bytes. -/
@[simp] theorem blockOfList_bytesOf (a : Block) : blockOfList (bytesOf a) = a := rfl

/-- A list of sixteen bytes is read back from its block. -/
theorem bytesOf_blockOfList {l : List Byte} (h : l.length = 16) : bytesOf (blockOfList l) = l := by
  match l, h with
  | [_, _, _, _, _, _, _, _, _, _, _, _, _, _, _, _], _ => rfl

theorem xorWord_zero (w : Word) : xorWord w Word.zero = w := by
  simp [xorWord, xor8, Word.zero]

theorem xorWord_self (w : Word) : xorWord w w = Word.zero := by
  simp [xorWord, xor8, Word.zero]

theorem xorWord_cancel (a b : Word) : xorWord (xorWord a b) b = a := by
  simp [xorWord, xor8]

theorem xorWord_left_injective (b : Word) : Function.Injective fun a => xorWord a b :=
  fun x y h => by
    have := congrArg (fun a => xorWord a b) h
    simpa [xorWord_cancel] using this

/-- R107: the entries of the schedule. -/
@[simp] theorem expandKey_getElem (k : Block) (r : Nat) (h : r < 11) :
    (expandKey k)[r] = roundKey k r := by
  simp [expandKey]

/-- R107: one step of the schedule. -/
theorem roundKey_succ (k : Block) (r : Nat) :
    roundKey k (r + 1) = nextRoundKey (roundKey k r) (rconIter r) := rfl

/-- R100: the constant of a round, inside the domain. -/
theorem rcon_of_range {n : Nat} (h1 : 1 ≤ n) (h10 : n ≤ 10) : rcon n = some (rconIter (n - 1)) := by
  simp [rcon, h1, h10]

/-- R115: the pipeline after no full round. -/
theorem afterRound_zero (p : Block) (rk : Vector Block 11) :
    afterRound p rk 0 = addRoundKey p rk[0] := rfl

end Sys2Proof.Laws
end

