-- ==== Sys2Proof/Laws/Decode.lean ====
section
/-! SUPPORT. Spec lemmas of the control word and the decoder: the fields read back, and the map in the spec's own prose
form (spec/30_encoding.md R52, "In prose"). -/

namespace Sys2Proof.Laws

@[simp] theorem ofCode_code (ph : Phase) : Phase.ofCode ph.code = ph := by cases ph <;> rfl

theorem code_ofCode : ∀ c : BitVec 3, (Phase.ofCode c).code = c := by decide

theorem ofBool_concat_fields : ∀ (a b : Bool) (p : BitVec 3) (r : BitVec 4),
    ((BitVec.ofBool a ++ BitVec.ofBool b ++ p ++ r).getLsbD 8 = a ∧
      (BitVec.ofBool a ++ BitVec.ofBool b ++ p ++ r).getLsbD 7 = b) ∧
    ((BitVec.ofBool a ++ BitVec.ofBool b ++ p ++ r).extractLsb' 4 3 = p ∧
      (BitVec.ofBool a ++ BitVec.ofBool b ++ p ++ r).extractLsb' 0 4 = r) := by
  decide

@[simp] theorem cwRst_controlWord (a b : Bool) (p : Phase) (r : RoundIndex) :
    cwRst (controlWord a b p r) = a := (ofBool_concat_fields a b p.code r).1.1

@[simp] theorem cwStart_controlWord (a b : Bool) (p : Phase) (r : RoundIndex) :
    cwStart (controlWord a b p r) = b := (ofBool_concat_fields a b p.code r).1.2

@[simp] theorem cwPhase_controlWord (a b : Bool) (p : Phase) (r : RoundIndex) :
    cwPhase (controlWord a b p r) = p := by
  have h := (ofBool_concat_fields a b p.code r).2.1
  simp only [cwPhase, controlWord]
  rw [h, ofCode_code]

@[simp] theorem cwRound_controlWord (a b : Bool) (p : Phase) (r : RoundIndex) :
    cwRound (controlWord a b p r) = r := (ofBool_concat_fields a b p.code r).2.2

/-- Every control word is formed from its own four fields. -/
theorem controlWord_fields : ∀ w : ControlWord,
    controlWord (cwRst w) (cwStart w) (cwPhase w) (cwRound w) = w := by
  decide +kernel

/-- R52: an operation admitted on a legal round index only. -/
def admitIf (legal : Bool) (i : Instr) : Except DecodeError Instr :=
  if legal then .ok i else .error .roundOutOfRange

@[simp] theorem admitIf_ok {legal : Bool} {i j : Instr} :
    admitIf legal i = .ok j ↔ legal = true ∧ i = j := by
  cases legal <;> simp [admitIf]

@[simp] theorem admitIf_error {legal : Bool} {i : Instr} {e : DecodeError} :
    admitIf legal i = .error e ↔ legal = false ∧ e = .roundOutOfRange := by
  cases legal <;> simp [admitIf, eq_comm]

/-- R52, "In prose": without reset "the phase alone selects the operation, except that in the two resting phases IDLE and
DONE the `start` input chooses between resting (IDLE, HOLD) and LOAD". -/
def selectByPhase (start : Bool) (ph : Phase) (rnd : RoundIndex) : Except DecodeError Instr :=
  match ph with
  | .idle => admitIf (rnd == 0) (if start then .loadIdle rnd else .idle rnd)
  | .keyexp => admitIf (decide (1 ≤ rnd.toNat) && decide (rnd.toNat ≤ 10)) (.kexp start rnd)
  | .init => admitIf (rnd == 0) (.init start rnd)
  | .round => admitIf (decide (1 ≤ rnd.toNat) && decide (rnd.toNat ≤ 9)) (.round start rnd)
  | .final => admitIf (rnd == 10) (.final start rnd)
  | .done => admitIf (rnd == 0) (if start then .loadDone rnd else .hold rnd)
  | .reserved6 => .error .reservedPhase
  | .reserved7 => .error .reservedPhase

/-- Two results of decoding are the same. -/
def sameDecode : Except DecodeError Instr → Except DecodeError Instr → Bool
  | .ok i, .ok j => i == j
  | .error d, .error e => d == e
  | _, _ => false

theorem eq_of_sameDecode {a b : Except DecodeError Instr} (h : sameDecode a b = true) : a = b := by
  cases a <;> cases b <;> simp_all [sameDecode]

/-- The table of R52 selects what its prose says: reset wins, then the phase selects. -/
theorem decode_controlWord (rst start : Bool) (ph : Phase) (rnd : RoundIndex) :
    decode (controlWord rst start ph rnd) =
      if rst then .ok (.reset start ph rnd) else selectByPhase start ph rnd := by
  apply eq_of_sameDecode
  revert rnd
  cases rst <;> cases start <;> cases ph <;> decide +kernel

end Sys2Proof.Laws
end

