-- ==== Sys2Proof/Laws/State.lean ====
section
/-! SUPPORT. What each named update of the state does to each field, one lemma per field per update, so that no
proof unfolds a record update. -/

namespace Sys2Proof.Machine

@[simp] theorem State.writePh_ph (s : State) (p : Phase) :
    (s.writePh p).ph = p := rfl

@[simp] theorem State.writePh_rnd (s : State) (p : Phase) :
    (s.writePh p).rnd = s.rnd := rfl

@[simp] theorem State.writePh_rc (s : State) (p : Phase) :
    (s.writePh p).rc = s.rc := rfl

@[simp] theorem State.writePh_st (s : State) (p : Phase) :
    (s.writePh p).st = s.st := rfl

@[simp] theorem State.writePh_rk (s : State) (p : Phase) :
    (s.writePh p).rk = s.rk := rfl

@[simp] theorem State.writePh_inputs (s : State) (p : Phase) :
    (s.writePh p).inputs = s.inputs := rfl

@[simp] theorem State.writePh_edge (s : State) (p : Phase) :
    (s.writePh p).edge = s.edge := rfl

@[simp] theorem State.writeRnd_ph (s : State) (n : RoundIndex) :
    (s.writeRnd n).ph = s.ph := rfl

@[simp] theorem State.writeRnd_rnd (s : State) (n : RoundIndex) :
    (s.writeRnd n).rnd = n := rfl

@[simp] theorem State.writeRnd_rc (s : State) (n : RoundIndex) :
    (s.writeRnd n).rc = s.rc := rfl

@[simp] theorem State.writeRnd_st (s : State) (n : RoundIndex) :
    (s.writeRnd n).st = s.st := rfl

@[simp] theorem State.writeRnd_rk (s : State) (n : RoundIndex) :
    (s.writeRnd n).rk = s.rk := rfl

@[simp] theorem State.writeRnd_inputs (s : State) (n : RoundIndex) :
    (s.writeRnd n).inputs = s.inputs := rfl

@[simp] theorem State.writeRnd_edge (s : State) (n : RoundIndex) :
    (s.writeRnd n).edge = s.edge := rfl

@[simp] theorem State.writeRc_ph (s : State) (v : Byte) :
    (s.writeRc v).ph = s.ph := rfl

@[simp] theorem State.writeRc_rnd (s : State) (v : Byte) :
    (s.writeRc v).rnd = s.rnd := rfl

@[simp] theorem State.writeRc_rc (s : State) (v : Byte) :
    (s.writeRc v).rc = v := rfl

@[simp] theorem State.writeRc_st (s : State) (v : Byte) :
    (s.writeRc v).st = s.st := rfl

@[simp] theorem State.writeRc_rk (s : State) (v : Byte) :
    (s.writeRc v).rk = s.rk := rfl

@[simp] theorem State.writeRc_inputs (s : State) (v : Byte) :
    (s.writeRc v).inputs = s.inputs := rfl

@[simp] theorem State.writeRc_edge (s : State) (v : Byte) :
    (s.writeRc v).edge = s.edge := rfl

@[simp] theorem State.writeSt_ph (s : State) (v : Block) :
    (s.writeSt v).ph = s.ph := rfl

@[simp] theorem State.writeSt_rnd (s : State) (v : Block) :
    (s.writeSt v).rnd = s.rnd := rfl

@[simp] theorem State.writeSt_rc (s : State) (v : Block) :
    (s.writeSt v).rc = s.rc := rfl

@[simp] theorem State.writeSt_st (s : State) (v : Block) :
    (s.writeSt v).st = v := rfl

@[simp] theorem State.writeSt_rk (s : State) (v : Block) :
    (s.writeSt v).rk = s.rk := rfl

@[simp] theorem State.writeSt_inputs (s : State) (v : Block) :
    (s.writeSt v).inputs = s.inputs := rfl

@[simp] theorem State.writeSt_edge (s : State) (v : Block) :
    (s.writeSt v).edge = s.edge := rfl

@[simp] theorem State.writeRoundKey_ph (s : State) (i : Fin 11) (v : Block) :
    (s.writeRoundKey i v).ph = s.ph := rfl

@[simp] theorem State.writeRoundKey_rnd (s : State) (i : Fin 11) (v : Block) :
    (s.writeRoundKey i v).rnd = s.rnd := rfl

@[simp] theorem State.writeRoundKey_rc (s : State) (i : Fin 11) (v : Block) :
    (s.writeRoundKey i v).rc = s.rc := rfl

@[simp] theorem State.writeRoundKey_st (s : State) (i : Fin 11) (v : Block) :
    (s.writeRoundKey i v).st = s.st := rfl

@[simp] theorem State.writeRoundKey_rk (s : State) (i : Fin 11) (v : Block) :
    (s.writeRoundKey i v).rk = s.rk.set i v := rfl

@[simp] theorem State.writeRoundKey_inputs (s : State) (i : Fin 11) (v : Block) :
    (s.writeRoundKey i v).inputs = s.inputs := rfl

@[simp] theorem State.writeRoundKey_edge (s : State) (i : Fin 11) (v : Block) :
    (s.writeRoundKey i v).edge = s.edge := rfl

@[simp] theorem State.zeroise_ph (s : State) :
    (s.zeroise).ph = .idle := rfl

@[simp] theorem State.zeroise_rnd (s : State) :
    (s.zeroise).rnd = 0 := rfl

@[simp] theorem State.zeroise_rc (s : State) :
    (s.zeroise).rc = 0x01 := rfl

@[simp] theorem State.zeroise_st (s : State) :
    (s.zeroise).st = Block.zero := rfl

@[simp] theorem State.zeroise_rk (s : State) :
    (s.zeroise).rk = Vector.replicate 11 Block.zero := rfl

@[simp] theorem State.zeroise_inputs (s : State) :
    (s.zeroise).inputs = s.inputs := rfl

@[simp] theorem State.zeroise_edge (s : State) :
    (s.zeroise).edge = s.edge := rfl

@[simp] theorem State.acceptRequest_ph (s : State) :
    (s.acceptRequest).ph = .keyexp := rfl

@[simp] theorem State.acceptRequest_rnd (s : State) :
    (s.acceptRequest).rnd = 1 := rfl

@[simp] theorem State.acceptRequest_rc (s : State) :
    (s.acceptRequest).rc = 0x01 := rfl

@[simp] theorem State.acceptRequest_st (s : State) :
    (s.acceptRequest).st = s.sampledBlock := rfl

@[simp] theorem State.acceptRequest_rk (s : State) :
    (s.acceptRequest).rk = s.rk.set 0 s.sampledKey := rfl

@[simp] theorem State.acceptRequest_inputs (s : State) :
    (s.acceptRequest).inputs = s.inputs := rfl

@[simp] theorem State.acceptRequest_edge (s : State) :
    (s.acceptRequest).edge = s.edge := rfl

@[simp] theorem State.nextEdge_ph (s : State) :
    (s.nextEdge).ph = s.ph := rfl

@[simp] theorem State.nextEdge_rnd (s : State) :
    (s.nextEdge).rnd = s.rnd := rfl

@[simp] theorem State.nextEdge_rc (s : State) :
    (s.nextEdge).rc = s.rc := rfl

@[simp] theorem State.nextEdge_st (s : State) :
    (s.nextEdge).st = s.st := rfl

@[simp] theorem State.nextEdge_rk (s : State) :
    (s.nextEdge).rk = s.rk := rfl

@[simp] theorem State.nextEdge_inputs (s : State) :
    (s.nextEdge).inputs = s.inputs.tail := rfl

@[simp] theorem State.nextEdge_edge (s : State) :
    (s.nextEdge).edge = s.edge + 1 := rfl

@[simp] theorem State.drive_ph (s : State) (i : PortSample) :
    (s.drive i).ph = s.ph := rfl

@[simp] theorem State.drive_rnd (s : State) (i : PortSample) :
    (s.drive i).rnd = s.rnd := rfl

@[simp] theorem State.drive_rc (s : State) (i : PortSample) :
    (s.drive i).rc = s.rc := rfl

@[simp] theorem State.drive_st (s : State) (i : PortSample) :
    (s.drive i).st = s.st := rfl

@[simp] theorem State.drive_rk (s : State) (i : PortSample) :
    (s.drive i).rk = s.rk := rfl

@[simp] theorem State.drive_inputs (s : State) (i : PortSample) :
    (s.drive i).inputs = i :: s.inputs := rfl

@[simp] theorem State.drive_edge (s : State) (i : PortSample) :
    (s.drive i).edge = s.edge := rfl

/-- The passing of the edge leaves every register alone. -/
@[simp] theorem State.nextEdge_toEngine (s : State) : s.nextEdge.toEngine = s.toEngine := rfl

/-- Placing stimulus leaves every register alone. -/
@[simp] theorem State.drive_toEngine (s : State) (i : PortSample) :
    (s.drive i).toEngine = s.toEngine := rfl

/-- RESET leaves the reset registers. -/
@[simp] theorem State.zeroise_toEngine (s : State) : s.zeroise.toEngine = Engine.reset := rfl

/-- What has been placed is what the next edge samples. -/
@[simp] theorem State.drive_sample (s : State) (i : PortSample) : (s.drive i).sample = i := rfl

/-- The placed sample is spent by the edge that takes it, and what was placed before stands again. -/
@[simp] theorem State.drive_nextEdge_inputs (s : State) (i : PortSample) :
    (s.drive i).nextEdge.inputs = s.inputs := rfl

/-- After an edge, the `k`-th sample from now is the one that was the `k + 1`-th. -/
@[simp] theorem State.nextEdge_sampleAt (s : State) (k : Nat) :
    s.nextEdge.sampleAt k = s.sampleAt (k + 1) := by
  have tail : s.inputs.tail[k]? = s.inputs[k + 1]? := by cases s.inputs <;> simp
  simp [State.sampleAt, tail, Nat.add_right_comm, Nat.add_assoc]

/-- The samples depend on the host's side of the state only. -/
theorem State.sampleAt_congr {s t : State} (hi : t.inputs = s.inputs) (he : t.edge = s.edge) (k : Nat) :
    t.sampleAt k = s.sampleAt k := by
  simp [State.sampleAt, hi, he]

end Sys2Proof.Machine
end

