-- ==== Sys2Proof/Laws/Ops.lean ====
section
/-! SUPPORT. One lemma for each shared operation that says once what it can answer, and the inversion of a step. -/

namespace Sys2Proof.Laws
open Sys2Proof.Machine

/-- `whenRoundZero` answers a next state on round index 0 only, and then the one it was given. -/
theorem whenRoundZero_next {rnd : RoundIndex} {t u : State} :
    whenRoundZero rnd t = .next u ↔ rnd = 0 ∧ u = t := by
  unfold whenRoundZero
  split
  · rename_i h0
    exact ⟨fun h => ⟨h0, by cases h; rfl⟩, fun h => by rw [h.2]⟩
  · rename_i h0
    exact ⟨fun h => (by cases h), fun h => absurd h.1 h0⟩

/-- `whenRoundZero` never faults. -/
theorem whenRoundZero_ne_fault {rnd : RoundIndex} {t : State} {f : Fault} :
    whenRoundZero rnd t ≠ .fault f := by
  unfold whenRoundZero
  split <;> simp

/-- KEXP uses the entries before and at its round index, 1 to 10. -/
theorem kexpEntries_ofNat {n : Nat} (h1 : 1 ≤ n) (h2 : n ≤ 10) :
    kexpEntries (BitVec.ofNat 4 n) = some (⟨n - 1, by omega⟩, ⟨n, by omega⟩) := by
  interval_cases n <;> rfl

/-- ROUND uses the entry at its round index, 1 to 9. -/
theorem roundEntry_ofNat {n : Nat} (h1 : 1 ≤ n) (h2 : n ≤ 9) :
    roundEntry (BitVec.ofNat 4 n) = some ⟨n, by omega⟩ := by
  interval_cases n <;> rfl

/-- A boundary check passes exactly on two lists of sixteen bytes, and answers their blocks. -/
theorem boundaryCheck_ok {key plaintext : List Byte} {r : Block × Block} :
    boundaryCheck key plaintext = .ok r ↔
      key.length = 16 ∧ plaintext.length = 16 ∧ r = (blockOfList key, blockOfList plaintext) := by
  unfold boundaryCheck Config.keyBytes Config.blockBytes
  split
  · simp_all
  · split
    · simp_all
    · simp_all [eq_comm]

/-- A next state of a step comes from one operation, whose effect it is, with the edge passed. -/
theorem step_next {s t : State} (h : step s = .next t) :
    ∃ i u, decode s.cw = .ok i ∧ exec i s = .next u ∧ t = u.nextEdge := by
  unfold step at h
  split at h
  · cases h
  · rename_i i hi
    cases hx : exec i s with
    | next u =>
      rw [hx] at h
      exact ⟨i, u, hi, hx, by simpa [afterEdge] using h.symm⟩
    | fault f => rw [hx] at h; cases h
    | refused r => rw [hx] at h; cases h

/-- A step performs the operation its control word selects. -/
theorem step_of_decode {s : State} {i : Instr} (h : decode s.cw = .ok i) :
    step s = afterEdge (exec i s) := by
  simp [step, h]

/-- A step whose control word selects nothing is refused. -/
theorem step_of_reject {s : State} {e : DecodeError} (h : decode s.cw = .error e) :
    step s = .refused (refusalOf e) := by
  simp [step, h]

/-- What the control word of an edge selects, by the sampled inputs and the position. -/
theorem decode_cw (s : State) :
    decode s.cw =
      if s.sample.rst then .ok (.reset s.sample.start s.ph s.rnd)
      else selectByPhase s.sample.start s.ph s.rnd :=
  decode_controlWord _ _ _ _

end Sys2Proof.Laws
end

