-- ==== Sys2Proof/Laws/PerInstr.lean ====
section
/-! SUPPORT. Statements made one constructor at a time: the family `ResetBit`, that bit 8 of an operation's control word,
`rst`, is 1 for RESET and for nothing else (spec/30_encoding.md R50, R52), and the family `RoundField`, that its bits 3:0
hold the operation's round index. -/

namespace Sys2Proof.Laws

/-- The operation is RESET. -/
def isReset : Instr → Bool
  | .reset _ _ _ => true
  | .idle _ => false
  | .loadIdle _ => false
  | .loadDone _ => false
  | .kexp _ _ => false
  | .init _ _ => false
  | .round _ _ => false
  | .final _ _ => false
  | .hold _ => false

/-- The round index of an operation. -/
def roundOf : Instr → RoundIndex
  | .reset _ _ rnd => rnd
  | .idle rnd => rnd
  | .loadIdle rnd => rnd
  | .loadDone rnd => rnd
  | .kexp _ rnd => rnd
  | .init _ rnd => rnd
  | .round _ rnd => rnd
  | .final _ rnd => rnd
  | .hold rnd => rnd

def ResetBit.Statement (i : Instr) : Prop := cwRst (encode i) = isReset i

theorem ResetBit.reset (start : Bool) (ph : Phase) (rnd : RoundIndex) :
    ResetBit.Statement (.reset start ph rnd) := cwRst_controlWord _ _ _ _
theorem ResetBit.idle (rnd : RoundIndex) : ResetBit.Statement (.idle rnd) := cwRst_controlWord _ _ _ _
theorem ResetBit.loadIdle (rnd : RoundIndex) : ResetBit.Statement (.loadIdle rnd) :=
  cwRst_controlWord _ _ _ _
theorem ResetBit.loadDone (rnd : RoundIndex) : ResetBit.Statement (.loadDone rnd) :=
  cwRst_controlWord _ _ _ _
theorem ResetBit.kexp (start : Bool) (rnd : RoundIndex) : ResetBit.Statement (.kexp start rnd) :=
  cwRst_controlWord _ _ _ _
theorem ResetBit.init (start : Bool) (rnd : RoundIndex) : ResetBit.Statement (.init start rnd) :=
  cwRst_controlWord _ _ _ _
theorem ResetBit.round (start : Bool) (rnd : RoundIndex) : ResetBit.Statement (.round start rnd) :=
  cwRst_controlWord _ _ _ _
theorem ResetBit.final (start : Bool) (rnd : RoundIndex) : ResetBit.Statement (.final start rnd) :=
  cwRst_controlWord _ _ _ _
theorem ResetBit.hold (rnd : RoundIndex) : ResetBit.Statement (.hold rnd) := cwRst_controlWord _ _ _ _

def RoundField.Statement (i : Instr) : Prop := cwRound (encode i) = roundOf i

theorem RoundField.reset (start : Bool) (ph : Phase) (rnd : RoundIndex) :
    RoundField.Statement (.reset start ph rnd) := cwRound_controlWord _ _ _ _
theorem RoundField.idle (rnd : RoundIndex) : RoundField.Statement (.idle rnd) :=
  cwRound_controlWord _ _ _ _
theorem RoundField.loadIdle (rnd : RoundIndex) : RoundField.Statement (.loadIdle rnd) :=
  cwRound_controlWord _ _ _ _
theorem RoundField.loadDone (rnd : RoundIndex) : RoundField.Statement (.loadDone rnd) :=
  cwRound_controlWord _ _ _ _
theorem RoundField.kexp (start : Bool) (rnd : RoundIndex) : RoundField.Statement (.kexp start rnd) :=
  cwRound_controlWord _ _ _ _
theorem RoundField.init (start : Bool) (rnd : RoundIndex) : RoundField.Statement (.init start rnd) :=
  cwRound_controlWord _ _ _ _
theorem RoundField.round (start : Bool) (rnd : RoundIndex) : RoundField.Statement (.round start rnd) :=
  cwRound_controlWord _ _ _ _
theorem RoundField.final (start : Bool) (rnd : RoundIndex) : RoundField.Statement (.final start rnd) :=
  cwRound_controlWord _ _ _ _
theorem RoundField.hold (rnd : RoundIndex) : RoundField.Statement (.hold rnd) :=
  cwRound_controlWord _ _ _ _

end Sys2Proof.Laws
end

