-- ==== Sys2Proof/Laws/Run.lean ====
section
/-! SUPPORT. Runs: one step at a time, and runs put end to end. -/

namespace Sys2Proof.Laws
open Sys2Proof.Machine

@[simp] theorem runSteps_zero (s : State) : runSteps 0 s = .next s := rfl

/-- A run of `n + 1` steps whose first answers a next state goes on from it. -/
theorem runSteps_succ {s t : State} (n : Nat) (h : step s = .next t) :
    runSteps (n + 1) s = runSteps n t := by
  have h' : Sys2Proof.core.step s = .next t := h
  show Host.Core.run Sys2Proof.core (n + 1) s = _
  simp [Host.Core.run, h', runSteps]

/-- A run of `n + 1` steps that answers a next state begins with a step that does. -/
theorem runSteps_succ_next {s t : State} {n : Nat} (h : runSteps (n + 1) s = .next t) :
    ∃ u, step s = .next u ∧ runSteps n u = .next t := by
  cases hs : step s with
  | next u => exact ⟨u, rfl, by rw [← runSteps_succ n hs, h]⟩
  | fault f =>
    have h' : Sys2Proof.core.step s = .fault f := hs
    exact absurd (show Host.Core.run Sys2Proof.core (n + 1) s = .next t from h) (by simp [Host.Core.run, h'])
  | refused r =>
    have h' : Sys2Proof.core.step s = .refused r := hs
    exact absurd (show Host.Core.run Sys2Proof.core (n + 1) s = .next t from h) (by simp [Host.Core.run, h'])

/-- Runs put end to end. -/
theorem runSteps_add {s t : State} (m n : Nat) (h : runSteps m s = .next t) :
    runSteps (m + n) s = runSteps n t := by
  induction m generalizing s with
  | zero => cases h; simp
  | succ m ih =>
    obtain ⟨u, hs, hr⟩ := runSteps_succ_next h
    rw [Nat.succ_add, runSteps_succ _ hs, ih hr]

/-- A position on the list of R16 is a legal one, and conversely. -/
theorem legalPosition_cases {ph : Phase} {rnd : RoundIndex} (h : legalPosition ph rnd = true) :
    (ph = .idle ∧ rnd = 0) ∨ (ph = .keyexp ∧ 1 ≤ rnd.toNat ∧ rnd.toNat ≤ 10) ∨
      (ph = .init ∧ rnd = 0) ∨ (ph = .round ∧ 1 ≤ rnd.toNat ∧ rnd.toNat ≤ 9) ∨
      (ph = .final ∧ rnd = 10) ∨ (ph = .done ∧ rnd = 0) := by
  cases ph <;> simp_all [legalPosition]

end Sys2Proof.Laws
end

