-- ==== Sys2Proof/Laws/Stimulus.lean ====
section
/-! SUPPORT. What the lines of a program do, and what the waiting of `WAITDONE` answers (spec/30_encoding.md R57). -/

namespace Sys2Proof.Laws
open Sys2Proof.Machine

@[simp] theorem runLines_nil (s : State) : runLines [] s = some s := rfl

@[simp] theorem tickLines_zero : tickLines 0 = [] := rfl

@[simp] theorem tickLines_succ (n : Nat) : tickLines (n + 1) = .tick :: tickLines n := rfl

/-- A line `TICK` whose step answers `t` goes on from `t`. -/
theorem runLines_tick {s t : State} (rest : List Line) (h : step (s.drive tickSample) = .next t) :
    runLines (.tick :: rest) s = runLines rest t := by
  simp [runLines, lineSample, h]

/-- Lines put end to end. -/
theorem runLines_append (ls rest : List Line) (s : State) :
    runLines (ls ++ rest) s = (runLines ls s).bind (runLines rest) := by
  induction ls generalizing s with
  | nil => rfl
  | cons l ls ih =>
    cases l with
    | expect d b c =>
      simp only [List.cons_append, runLines]
      split
      · exact ih s
      · rfl
    | _ =>
      simp only [List.cons_append, runLines, lineSample]
      split
      · exact ih _
      · rfl
      · rfl

/-- A program without pseudo-lines is the run of its lines. -/
theorem runProgram_lines (ls : List Line) (s : State) :
    runProgram (ls.map .line) s = runLines ls s := by
  induction ls generalizing s with
  | nil => rfl
  | cons l ls ih =>
    rw [← List.singleton_append, runLines_append]
    simp only [List.singleton_append, List.map_cons, runProgram, expandLine]
    cases runLines [l] s with
    | none => rfl
    | some t => exact ih t

/-- Where `done` is already 1 no line is waited for. -/
theorem ticksToDone_of_done {s : State} (n : Nat) (h : s.done = true) : ticksToDone n s = some 0 := by
  cases n <;> simp [ticksToDone, h]

/-- Where `done` is 0 one line passes and the waiting goes on from the state it leads to. -/
theorem ticksToDone_succ {s t : State} (n : Nat) (h : s.done = false)
    (ht : step (s.drive tickSample) = .next t) :
    ticksToDone (n + 1) s = (ticksToDone n t).map (· + 1) := by
  simp [ticksToDone, h, ht]

/-- What the waiting answers: it is within the limit, that many lines `TICK` lead to `done = 1`, and no fewer do. -/
theorem ticksToDone_some {n k : Nat} {s : State} (h : ticksToDone n s = some k) :
    k ≤ n ∧ (∃ t, runLines (tickLines k) s = some t ∧ t.done = true) ∧
      ∀ j, j < k → ∃ u, runLines (tickLines j) s = some u ∧ u.done = false := by
  induction n generalizing s k with
  | zero =>
    cases hd : s.done with
    | false => simp [ticksToDone, hd] at h
    | true =>
      rw [ticksToDone_of_done 0 hd, Option.some.injEq] at h
      subst h
      exact ⟨Nat.le_refl _, ⟨s, rfl, hd⟩, fun j hj => absurd hj (Nat.not_lt_zero j)⟩
  | succ n ih =>
    cases hd : s.done with
    | true =>
      rw [ticksToDone_of_done _ hd, Option.some.injEq] at h
      subst h
      exact ⟨Nat.zero_le _, ⟨s, rfl, hd⟩, fun j hj => absurd hj (Nat.not_lt_zero j)⟩
    | false =>
      cases hs : step (s.drive tickSample) with
      | fault f => simp [ticksToDone, hd, hs] at h
      | refused r => simp [ticksToDone, hd, hs] at h
      | next t =>
        rw [ticksToDone_succ n hd hs, Option.map_eq_some_iff] at h
        obtain ⟨m, hm, rfl⟩ := h
        obtain ⟨hle, ⟨u, hu, hud⟩, hbefore⟩ := ih hm
        refine ⟨Nat.succ_le_succ hle, ⟨u, by rw [tickLines_succ, runLines_tick _ hs, hu], hud⟩, ?_⟩
        intro j hj
        cases j with
        | zero => exact ⟨s, rfl, hd⟩
        | succ j =>
          obtain ⟨v, hv, hvd⟩ := hbefore j (Nat.lt_of_succ_lt_succ hj)
          exact ⟨v, by rw [tickLines_succ, runLines_tick _ hs, hv], hvd⟩

end Sys2Proof.Laws
end

