-- ==== Sys2Proof/Machine/Activity.lean ====
section
/-! DEFINITION. Which datapath units are active in each operation (spec/30_encoding.md R56): the decoded form of the
control word, "descriptive of the rules of 44_controller.md, not additional behaviour". -/

namespace Sys2Proof.Machine

/-- R56: the units named in the table's column "units in the data path". -/
inductive DatapathUnit where
  | unpackPorts
  | rotWordUnit
  | subWordUnit
  | rconXor
  | wordXors
  | subBytesUnit
  | shiftRowsUnit
  | mixColumnsUnit
  | addRoundKeyUnit
deriving DecidableEq, Repr

/-- R56: one row of the table. -/
structure UnitActivity where
  sboxReads : Nat
  xtimeUnits : Nat
  units : List DatapathUnit
  mixColumnsOn : Bool
deriving DecidableEq, Repr

/-- R56: the activity of each operation; KEXP steps `RC` through an `xtime` unit only if `RND ≤ 9`. -/
def activity : Instr → UnitActivity
  | .reset _ _ _ => ⟨0, 0, [], false⟩
  | .idle _ => ⟨0, 0, [], false⟩
  | .loadIdle _ => ⟨0, 0, [.unpackPorts], false⟩
  | .loadDone _ => ⟨0, 0, [.unpackPorts], false⟩
  | .kexp _ rnd =>
    ⟨4, if rnd.toNat ≤ 9 then 1 else 0, [.rotWordUnit, .subWordUnit, .rconXor, .wordXors], false⟩
  | .init _ _ => ⟨0, 0, [.addRoundKeyUnit], false⟩
  | .round _ _ =>
    ⟨16, 16, [.subBytesUnit, .shiftRowsUnit, .mixColumnsUnit, .addRoundKeyUnit], true⟩
  | .final _ _ => ⟨16, 0, [.subBytesUnit, .shiftRowsUnit, .addRoundKeyUnit], false⟩
  | .hold _ => ⟨0, 0, [], false⟩

end Sys2Proof.Machine
end

