-- ==== Sys2Proof/Tests/Slice0.lean ====
section
/-! SUPPORT. The model's own tests. Expected values are the spec's: the worked examples of its rules and the tables and traces
of spec/95_test_vectors.md. The last part holds, for each statement with hypotheses, a concrete input that meets them. -/

namespace Sys2Proof.Tests
open Sys2Proof.Machine Sys2Proof.Laws

/-! ### Well-formedness: an ill-formed term for each check, which the check refuses (R52) -/

theorem test_wf_idle_round_one : (Instr.idle 1).wellFormed = false := by decide
theorem test_wf_load_idle_round_one : (Instr.loadIdle 1).wellFormed = false := by decide
theorem test_wf_load_done_round_one : (Instr.loadDone 1).wellFormed = false := by decide
theorem test_wf_kexp_round_zero : (Instr.kexp false 0).wellFormed = false := by decide
theorem test_wf_kexp_round_eleven : (Instr.kexp false 11).wellFormed = false := by decide
theorem test_wf_init_round_one : (Instr.init true 1).wellFormed = false := by decide
theorem test_wf_round_round_zero : (Instr.round false 0).wellFormed = false := by decide
theorem test_wf_round_round_ten : (Instr.round false 10).wellFormed = false := by decide
theorem test_wf_final_round_nine : (Instr.final true 9).wellFormed = false := by decide
theorem test_wf_hold_round_one : (Instr.hold 1).wellFormed = false := by decide

/-! ### Decoding: words written out bit by bit from R50 and R52 (rst, start, PH, RND) -/

theorem test_decode_reset : decode 0b1_1_011_0100#9 = .ok (.reset true .round 4) := rfl
theorem test_decode_reset_reserved_phase : decode 0b1_0_110_1111#9 = .ok (.reset false .reserved6 15) := rfl
theorem test_decode_idle : decode 0b0_0_000_0000#9 = .ok (.idle 0) := rfl
theorem test_decode_load_idle : decode 0b0_1_000_0000#9 = .ok (.loadIdle 0) := rfl
theorem test_decode_load_done : decode 0b0_1_101_0000#9 = .ok (.loadDone 0) := rfl
theorem test_decode_kexp : decode 0b0_1_001_0101#9 = .ok (.kexp true 5) := rfl
theorem test_decode_init : decode 0b0_0_010_0000#9 = .ok (.init false 0) := rfl
theorem test_decode_round : decode 0b0_0_011_1001#9 = .ok (.round false 9) := rfl
theorem test_decode_final : decode 0b0_0_100_1010#9 = .ok (.final false 10) := rfl
theorem test_decode_hold : decode 0b0_0_101_0000#9 = .ok (.hold 0) := rfl

/-- R54: "any with `PH` code 110 or 111". -/
theorem test_decode_reserved_phases :
    decode 0b0_0_110_0000#9 = .error .reservedPhase ∧ decode 0b0_1_111_0000#9 = .error .reservedPhase :=
  ⟨rfl, rfl⟩

/-- R54: "for example `PH = ROUND, RND = 0`, or `RND` in 11..15 anywhere". -/
theorem test_decode_rounds_out_of_range :
    decode 0b0_0_011_0000#9 = .error .roundOutOfRange ∧
      decode 0b0_0_001_1011#9 = .error .roundOutOfRange ∧
      decode 0b0_0_000_1111#9 = .error .roundOutOfRange := ⟨rfl, rfl, rfl⟩

theorem test_table_word_kexp : decodeTableWord 16 0x011 = some (.kexp false 1) := by decide
theorem test_table_word_too_wide : decodeTableWord 16 0x211 = none := by decide

/-! ### The datapath units (95_test_vectors.md sections 3 to 7) -/

/-- Section 3: the sum, the XOR and the weighted sum of the table, and the count of entries below their address. -/
theorem test_sbox_checksums :
    (sboxTable.map BitVec.toNat).sum = 32640 ∧ sboxTable.foldl (· ^^^ ·) 0 = 0x00 ∧
      ((List.range 256).map fun b => (b + 1) * (subst (BitVec.ofNat 8 b)).toNat).sum = 4132988 ∧
      ((List.range 256).filter fun b => decide ((subst (BitVec.ofNat 8 b)).toNat < b)).length = 137 := by
  decide +kernel

theorem test_sub_bytes_last_row :
    subBytes (unpack 0xf0f1f2f3f4f5f6f7f8f9fafbfcfdfeff) = unpack 0x8ca1890dbfe6426841992d0fb054bb16 := by
  decide
theorem test_shift_rows_row_column_digits :
    shiftRows (unpack 0x00102030011121310212223203132333) = unpack 0x00112233011223300213203103102132 := by
  decide
theorem test_mix_columns_second_vector :
    mixColumns (unpack 0x632fafa2eb93c7209f92abcba0c0302b) = unpack 0xba75f47a84a48d32e88d060e1b407d5d := by
  decide
theorem test_next_round_key_ones :
    nextRoundKey (unpack 0xffffffffffffffffffffffffffffffff) 0x01 =
      unpack 0xe8e9e9e917161616e8e9e9e917161616 := by
  decide
theorem test_expand_key_last_of_second_vector :
    (expandKey (unpack 0x5468617473206d79204b756e67204675))[10] =
      unpack 0x28fddef86da4244accc0a4fe3b316f26 := by
  decide +kernel
theorem test_encrypt_ones_zero :
    encrypt (unpack 0xffffffffffffffffffffffffffffffff) (unpack 0) =
      unpack 0xa1f6258c877d5fcd8964484538bfc92c := by
  decide +kernel

/-! ### One step of each operation (R118 to R125, examples; 95_test_vectors.md section 10) -/

/-- The FIPS key of the source's first vector, on the port. -/
def fipsKey : BitVec 128 := 0x2b7e151628aed2a6abf7158809cf4f3c
/-- The plaintext of the source's first vector, on the port. -/
def fipsBlock : BitVec 128 := 0x3243f6a8885a308d313198a2e0370734

/-- The reset registers but for the position, with one sample placed. -/
def stateAt (ph : Phase) (rnd : RoundIndex) (i : PortSample) : State :=
  { State.reset with ph := ph, rnd := rnd, inputs := [i] }

/-- A field of the state after one step. -/
def afterStep {α : Type} (f : State → α) (s : State) : Option α :=
  match step s with
  | .next t => some (f t)
  | .fault _ => none
  | .refused _ => none

/-- R118, example: from (ROUND, 4) with `rst = 1, start = 1`. -/
theorem test_reset_from_round_four :
    afterStep (fun t => (t.ph, t.rnd, t.busy, t.ctOut, pack t.st))
        { stateAt .round 4 ⟨true, true, 0, 0⟩ with st := unpack fipsBlock } =
      some (.idle, 0, false, 0, 0) := by decide
theorem test_reset_from_reserved_phase :
    afterStep (fun t => (t.ph, t.rnd)) (stateAt .reserved7 9 resetSample) = some (.idle, 0) := by decide
theorem test_idle_stays :
    afterStep (fun t => (t.ph, t.rnd, t.done, t.busy)) (stateAt .idle 0 ⟨false, false, fipsKey, fipsBlock⟩) =
      some (.idle, 0, false, false) := by decide
/-- R120, example. -/
theorem test_load_from_idle :
    afterStep (fun t => (t.ph, t.rnd, t.rc, pack t.st, pack t.rk[0]))
        (stateAt .idle 0 (startSample fipsKey fipsBlock)) =
      some (.keyexp, 1, 0x01, fipsBlock, fipsKey) := by decide
/-- P2, edge 1. -/
theorem test_load_from_done :
    afterStep (fun t => (t.ph, t.rnd, t.rc, t.done, t.ctOut, pack t.rk[0]))
        { stateAt .done 0 (startSample fipsKey fipsBlock) with rc := 0x36 } =
      some (.keyexp, 1, 0x01, false, 0, fipsKey) := by decide
/-- R121, example. -/
theorem test_kexp_one :
    afterStep (fun t => (t.ph, t.rnd, t.rc, pack t.rk[1]))
        ((stateAt .keyexp 1 tickSample).writeRoundKey 0 (unpack fipsKey)) =
      some (.keyexp, 2, 0x02, 0xa0fafe1788542cb123a339392a6c7605) := by decide
/-- P1, edge 13. -/
theorem test_kexp_ten :
    afterStep (fun t => (t.ph, t.rnd, t.rc, pack t.rk[10]))
        ({ stateAt .keyexp 10 tickSample with rc := 0x36 }.writeRoundKey 9
          (unpack 0xac7766f319fadc2128d12941575c006e)) =
      some (.init, 0, 0x36, 0xd014f9a8c9ee2589e13f0cc8b6630ca6) := by decide
/-- R122, example. -/
theorem test_init :
    afterStep (fun t => (t.ph, t.rnd, pack t.st))
        (({ stateAt .init 0 tickSample with st := unpack fipsBlock }).writeRoundKey 0 (unpack fipsKey)) =
      some (.round, 1, 0x193de3bea0f4e22b9ac68d2ae9f84808) := by decide
/-- R123, example. -/
theorem test_round_one :
    afterStep (fun t => (t.ph, t.rnd, pack t.st))
        (({ stateAt .round 1 tickSample with
            st := unpack 0x193de3bea0f4e22b9ac68d2ae9f84808 }).writeRoundKey 1
          (unpack 0xa0fafe1788542cb123a339392a6c7605)) =
      some (.round, 2, 0xa49c7ff2689f352b6b5bea43026a5049) := by decide
/-- P1, edge 23. -/
theorem test_round_nine :
    afterStep (fun t => (t.ph, t.rnd, pack t.st))
        (({ stateAt .round 9 tickSample with
            st := unpack 0xea835cf00445332d655d98ad8596b0c5 }).writeRoundKey 9
          (unpack 0xac7766f319fadc2128d12941575c006e)) =
      some (.final, 10, 0xeb40f21e592e38848ba113e71bc342d2) := by decide
/-- R124, example. -/
theorem test_final :
    afterStep (fun t => (t.ph, t.rnd, t.done, t.ctOut))
        (({ stateAt .final 10 tickSample with
            st := unpack 0xeb40f21e592e38848ba113e71bc342d2 }).writeRoundKey 10
          (unpack 0xd014f9a8c9ee2589e13f0cc8b6630ca6)) =
      some (.done, 0, true, 0x3925841d02dc09fbdc118597196a0b32) := by decide
/-- R125: P2, edge 23. -/
theorem test_hold :
    afterStep (fun t => (t.ph, t.done, t.ctOut))
        { stateAt .done 0 ⟨false, false, fipsKey, fipsKey⟩ with st := unpack fipsBlock } =
      some (.done, true, fipsBlock) := by decide
/-- The word of KEXP 1, placed where the next step takes its word, is performed as the first operation after reset. -/
theorem test_fetch_word_kexp :
    afterStep (fun t => (t.ph, t.rnd)) (State.reset.withFetchWord 16 0x011) = some (.keyexp, 2) := by decide

/-! ### Host side (R57, R141; 95_test_vectors.md section 8) -/

/-- R57: the encoding of `START`, `01 : k : p`, in the trace tables. -/
theorem test_encode_start_line :
    (encodeSample (startSample fipsKey fipsBlock)).extractLsb' 256 2 = 0b01#2 ∧
      (encodeSample (startSample fipsKey fipsBlock)).extractLsb' 128 128 = fipsKey ∧
      (encodeSample (startSample fipsKey fipsBlock)).extractLsb' 0 128 = fipsBlock := by
  decide +kernel
theorem test_encrypt_bytes_empty_inputs : encryptBytes [] [] = .error (.invalidKeyLength 16 0) := rfl
theorem test_encrypt_bytes_long_block :
    encryptBytes (List.replicate 16 0x54) (List.replicate 17 0x21) = .error (.invalidBlockLength 16 17) := rfl
/-- R57: a failed check ends a program. -/
theorem test_expect_fails : runLines [.tick, .expect true false 0] State.reset = none := by decide
theorem test_expect_holds : (runLines [.reset, .expect false false 0] State.reset).isSome = true := by decide
/-- R57: `WAITDONE` in DONE is no line. -/
theorem test_waitdone_in_done : waitDoneLines (stateAt .done 0 tickSample) = some [] := by decide
/-- R57, R127: one line before FINAL. -/
theorem test_waitdone_before_final : waitDoneLines (stateAt .final 10 tickSample) = some [.tick] := by
  decide
/-- R57, R127: after `START`; `TICK 5` the position is (KEYEXP, 6), and `done` rises 16 edges later. -/
theorem test_waitdone_after_five_ticks :
    waitDoneLines (stateAt .keyexp 6 tickSample) = some (tickLines 16) := by decide +kernel
theorem test_waitdone_in_idle : waitDoneLines (stateAt .idle 0 tickSample) = none := by decide
theorem test_program_waitdone_line :
    (runProgram [.waitDone, .ticks 1, .line (.expect true false 0)] (stateAt .done 0 tickSample)).isSome =
      true := by decide

/-! ### Witnesses: inputs that meet the hypotheses of the statements -/

/-- A state that follows the zero key and block, about to perform KEXP 1. -/
def following : State := stateAt .keyexp 1 tickSample

theorem following_tracks : following.toEngine.Tracks Block.zero Block.zero := by
  constructor
  · decide
  · intro _
    refine ⟨by decide, fun j hj => ?_⟩
    have hj' : j.val < 1 := hj
    have hj0 : j = 0 := by omega
    subst hj0
    decide
  · intro h
    simp [following, stateAt] at h
  · intro _
    rfl
  · intro h
    simp [following, stateAt] at h
  · intro h
    simp [following, stateAt] at h

/-- The engine at rest with the FIPS request on the ports and 43 more samples with `start = 1` placed. -/
def requested : State :=
  { State.reset with inputs := List.replicate 44 (startSample fipsKey fipsBlock) }

theorem requested_sampleAt : ∀ k, k < 44 → requested.sampleAt k = startSample fipsKey fipsBlock := by
  intro k hk
  have placed : requested.inputs[k]? = some (startSample fipsKey fipsBlock) := by
    show (List.replicate 44 (startSample fipsKey fipsBlock))[k]? = _
    rw [List.getElem?_replicate, if_pos hk]
  simp [State.sampleAt, placed]

theorem requested_noReset : requested.noResetFrom 0 21 := by
  intro k _ hk
  rw [requested_sampleAt k (by omega)]
  rfl

/-- The same request accepted in DONE, with other registers. -/
def requestedAgain : State :=
  { requested with ph := .done, rc := 0x36, st := unpack fipsBlock }

theorem witness_DecodeAfterEncodeReturnsTheOperation :
    (Instr.kexp true 1).wellFormed = true ∧ (Instr.kexp true 10).wellFormed = true ∧
      (Instr.round false 1).wellFormed = true ∧ (Instr.round false 9).wellFormed = true ∧
      (Instr.final true 10).wellFormed = true ∧ (Instr.reset true .reserved7 15).wellFormed = true := by
  decide
theorem witness_AcceptedWordsEncodeBack : decode 0x01a#9 = .ok (.kexp false 10) := rfl
theorem witness_RowsAreDisjointAndReservedWordsSelectNothing :
    (∃ a ∈ opRows, ∃ b ∈ opRows, rowSelects 0x080 a = true ∧ rowSelects 0x080 b = true) ∧
      legalPosition .keyexp 10 = true ∧ legalPosition .keyexp 11 = false := by
  decide
theorem witness_StepPerformsTheSelectedOperation :
    decode (controlWord following.sample.rst following.sample.start following.ph following.rnd) =
        .ok (.kexp false 1) ∧ ∃ t, exec (.kexp false 1) following = .next t := ⟨rfl, _, rfl⟩
theorem witness_StepPerformsTheSelectedOperation_refused :
    exec (.kexp false 11) following = .refused .roundOutOfRange := rfl
theorem witness_StepRefusesIllegalPositions :
    (stateAt .reserved6 0 tickSample).sample.rst = false ∧
      (stateAt .round 0 tickSample).sample.rst = false ∧
      (stateAt .round 0 tickSample).atLegalPosition = false ∧
      (stateAt .round 10 tickSample).atLegalPosition = false ∧
      (stateAt .keyexp 11 tickSample).atLegalPosition = false ∧
      (stateAt .final 9 tickSample).atLegalPosition = false ∧
      (stateAt .done 1 tickSample).atLegalPosition = false := by decide
theorem witness_IllFormedOperationsAreRefused :
    (Instr.kexp false 0).wellFormed = false ∧ (Instr.kexp false 11).wellFormed = false ∧
      (Instr.round true 10).wellFormed = false := by decide
theorem witness_EveryLegalPositionHasAStep :
    (stateAt .keyexp 10 tickSample).atLegalPosition = true ∧
      (stateAt .round 9 tickSample).atLegalPosition = true := by decide
theorem witness_EveryStepKeepsTheScheduleInvariant :
    following.toEngine.Invariant ∧ ∃ t, step following = .next t :=
  ⟨⟨_, _, following_tracks⟩, _, rfl⟩
theorem witness_RegistersTrackTheLastRequest_kept :
    following.toEngine.Tracks Block.zero Block.zero ∧ (∃ t, step following = .next t) ∧
      following.acceptsRequest = false := ⟨following_tracks, ⟨_, rfl⟩, rfl⟩
theorem witness_RegistersTrackTheLastRequest_taken :
    requested.toEngine.Tracks Block.zero (unpack fipsBlock) ∧ (∃ t, step requested = .next t) ∧
      requested.acceptsRequest = true := by
  refine ⟨?_, ⟨_, rfl⟩, rfl⟩
  constructor <;> simp [requested, State.reset, Engine.reset, Engine.atLegalPosition, legalPosition]
theorem witness_PositionsAdvanceOnePlace :
    (stateAt .round 9 resetSample).atLegalPosition = true ∧
      (stateAt .round 9 resetSample).sample.rst = true ∧
      (stateAt .idle 0 tickSample).resting = true ∧ (stateAt .idle 0 tickSample).sample.start = false ∧
      (stateAt .done 0 (startSample 0 0)).resting = true ∧
      (stateAt .done 0 (startSample 0 0)).sample.start = true ∧
      (stateAt .keyexp 10 tickSample).resting = false := by decide
theorem witness_OutputsAreFunctionsOfTheRegisters :
    Engine.reset.ph ≠ .done ∧ Engine.reset.ph ≠ .reserved6 ∧ Engine.reset.ph ≠ .reserved7 ∧
      (stateAt .done 0 tickSample).ph = .done := by decide
theorem witness_ShiftRowsRotatesRowsLeft :
    ∀ r c d : Fin 4, matrixAt (unpack 0x00010203000102030001020300010203) r c =
      matrixAt (unpack 0x00010203000102030001020300010203) r d := by decide
theorem witness_MixColumnsActsOnEachColumn :
    (∀ r, matrixAt (unpack 0x000102030405060708090a0b0c0d0e0f) r 0 =
      matrixAt (unpack 0x00010203ffffffffffffffffffffffff) r 0) ∧
      unpack 0x000102030405060708090a0b0c0d0e0f ≠ unpack 0x00010203ffffffffffffffffffffffff := by decide
theorem witness_RconIsTheXtimeSequence : 2 ≤ 10 ∧ 10 ≤ 10 ∧ (11 = 0 ∨ 11 ≤ 11) := by decide
theorem witness_NextRoundKeyChainsTheWords : 4 ≤ (4 : Fin 16).val ∧ 4 ≤ (15 : Fin 16).val := by decide
theorem witness_ExpandKeyFollowsTheRecurrence :
    1 ≤ (10 : Fin 11).val ∧ 4 ≤ (40 : Fin 44).val ∧ (40 : Fin 44).val % 4 = 0 ∧
      (43 : Fin 44).val % 4 ≠ 0 := by decide
theorem witness_CipherIsTheRoundPipeline : 1 ≤ (9 : Fin 11).val ∧ (9 : Fin 11).val ≤ 9 := by decide
theorem witness_LoadTakesKeyAndBlock :
    Instr.loadIdle 0 = .loadIdle 0 ∨ Instr.loadIdle 0 = .loadDone 0 := .inl rfl
theorem witness_KexpWritesOneRoundKey : 1 ≤ 1 ∧ 9 ≤ 9 ∧ 1 ≤ 10 ∧ 10 ≤ 10 := by decide
theorem witness_InitAddsTheFirstRoundKey : (stateAt .init 0 tickSample).rk[0] = Block.zero := rfl
theorem witness_RoundAppliesOneFullRound : 1 ≤ 9 ∧ 9 ≤ 9 ∧ 8 ≠ 9 := by decide
/-- An engine with no legal position and two edges of reset ahead. -/
def unresetTwice : State :=
  { stateAt .reserved6 15 resetSample with
    inputs := [resetSample, ⟨true, true, fipsKey, fipsBlock⟩] }

theorem witness_ResetEdgeReachesTheResetState : ∀ k, k ≤ 1 → (unresetTwice.sampleAt k).rst = true := by
  intro k hk
  interval_cases k <;> rfl
theorem witness_IdleWaitsForStart :
    (stateAt .idle 0 ⟨false, false, fipsKey, fipsBlock⟩).ph = .idle ∧
      (stateAt .idle 0 ⟨false, false, fipsKey, fipsBlock⟩).rnd = 0 ∧
      ∀ k, k < 1 → ((stateAt .idle 0 ⟨false, false, fipsKey, fipsBlock⟩).sampleAt k).rst = false ∧
        ((stateAt .idle 0 ⟨false, false, fipsKey, fipsBlock⟩).sampleAt k).start = false := by
  refine ⟨rfl, rfl, fun k hk => ?_⟩
  interval_cases k
  exact ⟨rfl, rfl⟩
theorem witness_HoldKeepsTheCiphertext :
    (stateAt .done 0 tickSample).ph = .done ∧ (stateAt .done 0 tickSample).rnd = 0 ∧
      (∀ k, k < 1 → ((stateAt .done 0 tickSample).sampleAt k).rst = false ∧
        ((stateAt .done 0 tickSample).sampleAt k).start = false) ∧
      (stateAt .done 0 (startSample fipsKey fipsBlock)).sample.rst = false ∧
      (stateAt .done 0 (startSample fipsKey fipsBlock)).sample.start = true := by
  refine ⟨rfl, rfl, fun k hk => ?_, rfl, rfl⟩
  interval_cases k
  exact ⟨rfl, rfl⟩
theorem witness_RequestsWhileBusyAreIgnored :
    (stateAt .round 9 tickSample).toEngine = (stateAt .round 9 (startSample fipsKey fipsBlock)).toEngine ∧
      (stateAt .round 9 tickSample).busy = true ∧
      (stateAt .round 9 tickSample).sample.rst =
        (stateAt .round 9 (startSample fipsKey fipsBlock)).sample.rst ∧
      ∃ t, step (stateAt .round 9 tickSample) = .next t := ⟨rfl, rfl, rfl, _, rfl⟩
theorem witness_KeyIsImmutableWhileBusy :
    following.busy = true ∧ following.sample.rst = false ∧ ∃ t, step following = .next t :=
  ⟨rfl, rfl, _, rfl⟩
theorem witness_EncryptionFollowsTheSchedule :
    requested.acceptsRequest = true ∧ requested.noResetFrom 1 21 :=
  ⟨rfl, fun k _ h => requested_noReset k (Nat.zero_le k) h⟩
theorem witness_EngineComputesEncrypt :
    requestedAgain.acceptsRequest = true ∧ requestedAgain.sample.keyIn = pack (unpack fipsKey) ∧
      requestedAgain.sample.blockIn = pack (unpack fipsBlock) ∧ requestedAgain.noResetFrom 1 21 := by
  refine ⟨rfl, by decide, by decide, fun k _ h => ?_⟩
  rw [State.sampleAt_congr (s := requested) (t := requestedAgain) rfl rfl]
  exact requested_noReset k (Nat.zero_le k) h
theorem witness_ControlIsDataIndependent :
    (stateAt .idle 0 (startSample fipsKey fipsBlock)).position = (stateAt .idle 0 (startSample 0 0)).position ∧
      (∀ k, k < 1 →
        ((stateAt .idle 0 (startSample fipsKey fipsBlock)).sampleAt k).rst =
          ((stateAt .idle 0 (startSample 0 0)).sampleAt k).rst ∧
        ((stateAt .idle 0 (startSample fipsKey fipsBlock)).sampleAt k).start =
          ((stateAt .idle 0 (startSample 0 0)).sampleAt k).start) ∧
      ∃ t, runSteps 1 (stateAt .idle 0 (startSample fipsKey fipsBlock)) = .next t := by
  refine ⟨rfl, fun k hk => ?_, _, rfl⟩
  interval_cases k
  exact ⟨rfl, rfl⟩
theorem witness_DataPortsMatterOnlyAtLoad :
    (stateAt .round 1 (startSample fipsKey fipsBlock)).toEngine = (stateAt .round 1 (startSample 0 0)).toEngine ∧
      (∀ k, k < 1 →
        ((stateAt .round 1 (startSample fipsKey fipsBlock)).sampleAt k).rst =
          ((stateAt .round 1 (startSample 0 0)).sampleAt k).rst ∧
        ((stateAt .round 1 (startSample fipsKey fipsBlock)).sampleAt k).start =
          ((stateAt .round 1 (startSample 0 0)).sampleAt k).start) ∧
      (∀ k u, k < 1 → runSteps k (stateAt .round 1 (startSample fipsKey fipsBlock)) = .next u →
        u.acceptsRequest = true →
        ((stateAt .round 1 (startSample fipsKey fipsBlock)).sampleAt k).keyIn =
          ((stateAt .round 1 (startSample 0 0)).sampleAt k).keyIn ∧
        ((stateAt .round 1 (startSample fipsKey fipsBlock)).sampleAt k).blockIn =
          ((stateAt .round 1 (startSample 0 0)).sampleAt k).blockIn) ∧
      ∃ t, runSteps 1 (stateAt .round 1 (startSample fipsKey fipsBlock)) = .next t := by
  refine ⟨rfl, fun k hk => ?_, fun k u hk hu ha => ?_, _, rfl⟩
  · interval_cases k
    exact ⟨rfl, rfl⟩
  · interval_cases k
    cases hu
    exact absurd ha (by decide)
/-- The same stimulus ahead of an engine that is about to perform KEXP 1. -/
def expanding : State := { requested with ph := .keyexp, rnd := 1 }

theorem witness_BusyEngineReachesDone :
    expanding.atLegalPosition = true ∧ expanding.busy = true ∧
      (stateAt .final 10 resetSample).atLegalPosition = true ∧
      (stateAt .final 10 resetSample).busy = true ∧
      (stateAt .final 10 resetSample).sample.rst = true ∧ expanding.noResetFrom 0 20 := by
  refine ⟨rfl, rfl, rfl, rfl, rfl, fun k h0 h => ?_⟩
  rw [State.sampleAt_congr (s := requested) (t := expanding) rfl rfl]
  exact requested_noReset k h0 (by omega)
theorem witness_HeldStartEncryptsEvery22Edges :
    requested.atLegalPosition = true ∧ requested.resting = true ∧
      ∀ k, k < 22 * (1 + 1) → (requested.sampleAt k).rst = false ∧ (requested.sampleAt k).start = true := by
  refine ⟨rfl, rfl, fun k hk => ?_⟩
  rw [requested_sampleAt k hk]
  exact ⟨rfl, rfl⟩
theorem witness_EqualRequestsLeaveEqualRegisters :
    requested.acceptsRequest = true ∧ requestedAgain.acceptsRequest = true ∧
      requested.sample.keyIn = requestedAgain.sample.keyIn ∧
      requested.sample.blockIn = requestedAgain.sample.blockIn ∧
      requested.noResetFrom 1 21 ∧ requestedAgain.noResetFrom 1 21 ∧ requested ≠ requestedAgain :=
  ⟨rfl, rfl, rfl, rfl, witness_EncryptionFollowsTheSchedule.2, witness_EngineComputesEncrypt.2.2.2,
    by decide⟩
theorem witness_AdapterRejectsWrongLengths :
    (List.replicate 15 (0x54 : Byte)).length ≠ 16 ∧ (List.replicate 17 (0x54 : Byte)).length ≠ 16 ∧
      (List.replicate 16 (0x54 : Byte)).length = 16 := by decide
theorem witness_AdapterReturnsTheCiphertext :
    (List.replicate 16 (0x54 : Byte)).length = 16 ∧ (List.replicate 16 (0x21 : Byte)).length = 16 ∧
      (stateAt .keyexp 1 (startSample 0 0)).atLegalPosition = true := by decide
theorem witness_WaitDoneTicksUntilDone :
    (stateAt .done 0 tickSample).ph = .done ∧
      (stateAt .keyexp 1 tickSample).atLegalPosition = true ∧ (stateAt .keyexp 1 tickSample).busy = true ∧
      (stateAt .final 10 tickSample).atLegalPosition = true ∧ (stateAt .final 10 tickSample).busy = true ∧
      (stateAt .idle 0 tickSample).atLegalPosition = true ∧ (stateAt .idle 0 tickSample).resting = true ∧
      (stateAt .idle 0 tickSample).ph = .idle ∧ (stateAt .idle 0 tickSample).rnd = 0 := by decide

end Sys2Proof.Tests
end

