-- ==== Sys2Proof/Proofs/Outputs.lean ====
section
/-! SUPPORT. The output ports as functions of the registers (spec/10_state.md R18). -/

namespace Sys2Proof.Proofs
open Sys2Proof.Machine Sys2Proof.Laws

theorem done_eq_true_iff {e : Engine} : e.done = true ↔ e.ph = .done := by
  simp [Engine.done]

theorem busy_eq_true_iff {e : Engine} :
    e.busy = true ↔ e.ph = .keyexp ∨ e.ph = .init ∨ e.ph = .round ∨ e.ph = .final := by
  simp [Engine.busy, or_assoc]

theorem ctOut_of_done {e : Engine} (h : e.ph = .done) : e.ctOut = pack e.st := if_pos h

theorem ctOut_of_not_done {e : Engine} (h : e.ph ≠ .done) : e.ctOut = 0 := if_neg h

theorem not_done_and_busy (e : Engine) : ¬(e.done = true ∧ e.busy = true) := by
  rw [done_eq_true_iff, busy_eq_true_iff]
  rintro ⟨hdone, hbusy⟩
  simp [hdone] at hbusy

/-- R18: of the six phases only IDLE has both status bits 0. -/
theorem not_done_not_busy_iff_idle {e : Engine} (h6 : e.ph ≠ .reserved6) (h7 : e.ph ≠ .reserved7) :
    (e.done = false ∧ e.busy = false) ↔ e.ph = .idle := by
  rw [← Bool.not_eq_true, ← Bool.not_eq_true, done_eq_true_iff, busy_eq_true_iff]
  cases hph : e.ph <;> simp_all

/-- R34: byte `b` of a word stands in bits `31 - 8b` to `24 - 8b` of its 32 bits. -/
theorem packWord_byte (w : Word) (b : Fin 4) :
    (packWord w).extractLsb' (24 - 8 * b.val) 8 = wordByte w b := by
  have bytes := unpackWord_packWord w
  fin_cases b
  · exact congrArg Word.b0 bytes
  · exact congrArg Word.b1 bytes
  · exact congrArg Word.b2 bytes
  · exact congrArg Word.b3 bytes

/-- R34, R36: word `j` of a block stands in bits `127 - 32j` to `96 - 32j` of the port. -/
theorem pack_word (a : Block) (j : Fin 4) :
    (pack a).extractLsb' (96 - 32 * j.val) 32 = packWord (wordOf a j) := by
  obtain ⟨h0, h1, h2, h3⟩ := pack_slices a
  fin_cases j
  · exact h0
  · exact h1
  · exact h2
  · exact h3

/-- R34: byte `i` of a block stands in bits `127 - 8i` to `120 - 8i` of the port. -/
theorem pack_byte (a : Block) (i : Fin 16) :
    (pack a).extractLsb' (120 - 8 * i.val) 8 = byteAt a i := by
  have place : 120 - 8 * i.val = 96 - 32 * (i.val / 4) + (24 - 8 * (i.val % 4)) := by omega
  have inside : 24 - 8 * (i.val % 4) + 8 ≤ 32 := by omega
  rw [place, ← slice_slice (pack a) _ 32 _ 8 inside, pack_word a ⟨i.val / 4, by omega⟩]
  exact packWord_byte _ ⟨i.val % 4, by omega⟩

/-- Settles O15: the three ports one by one; the byte order of `ct_out` is that of `pack`. -/
theorem outputsAreFunctionsOfTheRegisters : Obligations.OutputsAreFunctionsOfTheRegisters :=
  ⟨fun e => ⟨done_eq_true_iff, busy_eq_true_iff, ctOut_of_done, ctOut_of_not_done,
      not_done_and_busy e, not_done_not_busy_iff_idle⟩,
    fun e i hdone => by rw [ctOut_of_done hdone, pack_byte]⟩

end Sys2Proof.Proofs
end

