-- ==== Sys2Proof/Proofs/Edges.lean ====
section
/-! SUPPORT. What one edge with `rst = 0` does from each legal position that moves (spec/44_controller.md R120 to R124), and
what every edge does to the host's side of the state. -/

namespace Sys2Proof.Proofs
open Sys2Proof.Machine Sys2Proof.Laws

/-! ### The operations inside their ranges -/

/-- R121: what KEXP writes into entry `r` of the round-key store, from the entry before it and `RC`. -/
def writeNextRoundKey (s : State) (r : Fin 11) : State :=
  s.writeRoundKey r (nextRoundKey (s.readRoundKey ⟨r.val - 1, by omega⟩) s.rc)

/-- R121: KEXP at 1 to 9 goes on to the next round key. -/
theorem execKexp_below_ten (start : Bool) {rnd : RoundIndex} (s : State) (h1 : 1 ≤ rnd.toNat)
    (h9 : rnd.toNat ≤ 9) :
    execKexp start rnd s =
      .next (((writeNextRoundKey s ⟨rnd.toNat, by omega⟩).writeRc (xtime s.rc)).writeRnd (rnd + 1)) := by
  have h10 : rnd.toNat ≤ 10 := by omega
  simp [execKexp, kexpEntries, writeNextRoundKey, h1, h9, h10]

/-- R121: KEXP at 10 goes on to INIT. -/
theorem execKexp_ten (start : Bool) (s : State) :
    execKexp start 10 s = .next (((writeNextRoundKey s 10).writeRnd 0).writePh .init) := rfl

/-- R122. -/
theorem execInit_zero (start : Bool) (s : State) :
    execInit start 0 s =
      .next (((s.writeSt (addRoundKey s.st (s.readRoundKey 0))).writeRnd 1).writePh .round) := rfl

/-- R123: ROUND at 1 to 8 goes on to the next full round. -/
theorem execRound_below_nine (start : Bool) {rnd : RoundIndex} (s : State) (h1 : 1 ≤ rnd.toNat)
    (h8 : rnd.toNat ≤ 8) :
    execRound start rnd s =
      .next ((s.writeSt (roundFn s.st (s.readRoundKey ⟨rnd.toNat, by omega⟩))).writeRnd (rnd + 1)) := by
  have h9 : rnd.toNat ≤ 9 := by omega
  have not_last : rnd.toNat ≠ 9 := by omega
  simp [execRound, roundEntry, Fin.ext_iff, h1, h9, not_last]

/-- R123: ROUND at 9 goes on to FINAL. -/
theorem execRound_nine (start : Bool) (s : State) :
    execRound start 9 s =
      .next (((s.writeSt (roundFn s.st (s.readRoundKey 9))).writeRnd 10).writePh .final) := rfl

/-- R124. -/
theorem execFinal_ten (start : Bool) (s : State) :
    execFinal start 10 s =
      .next (((s.writeSt (finalFn s.st (s.readRoundKey 10))).writeRnd 0).writePh .done) := rfl

/-! ### The step at each position -/

/-- R120: an accepted request. -/
theorem step_accept {s : State} (h : s.acceptsRequest = true) :
    step s = .next s.acceptRequest.nextEdge := by
  simp only [State.acceptsRequest, Engine.resting, Bool.and_eq_true, Bool.or_eq_true, beq_iff_eq,
    Bool.not_eq_true'] at h
  obtain ⟨⟨⟨hstart, hrst⟩, hrest⟩, hrnd⟩ := h
  rcases hrest with hph | hph
  · have hd : decode s.cw = .ok (.loadIdle 0) := by
      simp [decode_cw, selectByPhase, hrst, hph, hstart, hrnd]
    rw [step_of_decode hd]
    rfl
  · have hd : decode s.cw = .ok (.loadDone 0) := by
      simp [decode_cw, selectByPhase, hrst, hph, hstart, hrnd]
    rw [step_of_decode hd]
    rfl

section
variable {s : State} (hrst : s.sample.rst = false)
include hrst

theorem step_keyexp (hph : s.ph = .keyexp) (h1 : 1 ≤ s.rnd.toNat) (h10 : s.rnd.toNat ≤ 10) :
    step s = afterEdge (execKexp s.sample.start s.rnd s) :=
  step_of_decode (i := .kexp s.sample.start s.rnd) (by simp [decode_cw, selectByPhase, hrst, hph, h1, h10])

theorem step_init (hph : s.ph = .init) (hrnd : s.rnd = 0) :
    step s = afterEdge (execInit s.sample.start 0 s) :=
  step_of_decode (i := .init s.sample.start 0) (by simp [decode_cw, selectByPhase, hrst, hph, hrnd])

theorem step_round (hph : s.ph = .round) (h1 : 1 ≤ s.rnd.toNat) (h9 : s.rnd.toNat ≤ 9) :
    step s = afterEdge (execRound s.sample.start s.rnd s) :=
  step_of_decode (i := .round s.sample.start s.rnd) (by simp [decode_cw, selectByPhase, hrst, hph, h1, h9])

theorem step_final (hph : s.ph = .final) (hrnd : s.rnd = 10) :
    step s = afterEdge (execFinal s.sample.start 10 s) :=
  step_of_decode (i := .final s.sample.start 10) (by simp [decode_cw, selectByPhase, hrst, hph, hrnd])

end

/-! ### The host's side -/

/-- Log entry 1: no operation touches the placed stimulus or the count of edges. -/
theorem exec_keeps_host {i : Instr} {s t : State} (h : exec i s = .next t) :
    t.inputs = s.inputs ∧ t.edge = s.edge := by
  cases i with
  | reset start ph rnd =>
    cases h
    exact ⟨rfl, rfl⟩
  | idle rnd =>
    obtain ⟨-, rfl⟩ := whenRoundZero_next.mp h
    exact ⟨rfl, rfl⟩
  | loadIdle rnd =>
    obtain ⟨-, rfl⟩ := whenRoundZero_next.mp h
    exact ⟨rfl, rfl⟩
  | loadDone rnd =>
    obtain ⟨-, rfl⟩ := whenRoundZero_next.mp h
    exact ⟨rfl, rfl⟩
  | hold rnd =>
    obtain ⟨-, rfl⟩ := whenRoundZero_next.mp h
    exact ⟨rfl, rfl⟩
  | kexp start rnd =>
    simp only [exec, execKexp] at h
    split at h
    · cases h
    · split at h <;> cases h <;> exact ⟨rfl, rfl⟩
  | init start rnd =>
    simp only [exec, execInit] at h
    split at h <;> cases h
    exact ⟨rfl, rfl⟩
  | round start rnd =>
    simp only [exec, execRound] at h
    split at h
    · cases h
    · split at h <;> cases h <;> exact ⟨rfl, rfl⟩
  | final start rnd =>
    simp only [exec, execFinal] at h
    split at h <;> cases h
    exact ⟨rfl, rfl⟩

/-- After a step the `k`-th sample from now is the one that was the `k + 1`-th. -/
theorem step_sampleAt {s t : State} (h : step s = .next t) (k : Nat) :
    t.sampleAt k = s.sampleAt (k + 1) := by
  obtain ⟨i, u, -, hexec, rfl⟩ := step_next h
  obtain ⟨hinputs, hedge⟩ := exec_keeps_host hexec
  rw [State.nextEdge_sampleAt, State.sampleAt_congr hinputs hedge]

/-- After `n` steps the `k`-th sample from now is the one that was the `n + k`-th. -/
theorem runSteps_sampleAt {n : Nat} {s t : State} (h : runSteps n s = .next t) (k : Nat) :
    t.sampleAt k = s.sampleAt (n + k) := by
  induction n generalizing s with
  | zero =>
    cases h
    rw [Nat.zero_add]
  | succ n ih =>
    obtain ⟨u, hstep, hrest⟩ := runSteps_succ_next h
    rw [ih hrest, step_sampleAt hstep, Nat.add_right_comm]

/-- A run made one step longer at its end. -/
theorem runSteps_snoc {n : Nat} {s t u : State} (hrun : runSteps n s = .next t)
    (hstep : step t = .next u) : runSteps (n + 1) s = .next u := by
  rw [runSteps_add n 1 hrun, runSteps_succ 0 hstep, runSteps_zero]

end Sys2Proof.Proofs
end

