-- ==== Sys2Proof/Proofs/Schedule.lean ====
section
/-! SUPPORT. The invariant of the schedule (spec/10_state.md R24) along one encryption: LOAD establishes it, every busy edge
keeps it and moves the position one place (R16), so that 22 edges end in DONE (spec/44_controller.md R127, R130). -/

namespace Sys2Proof.Proofs
open Sys2Proof.Machine Sys2Proof.Laws

/-! ### The round keys and the pipeline, one round further -/

/-- R100: the constant after `rcon n` is its `xtime`. -/
theorem rcon_succ {n : Nat} {v : Byte} (h1 : 1 ≤ n) (h9 : n ≤ 9) (h : rcon n = some v) :
    rcon (n + 1) = some (xtime v) := by
  rw [rcon_of_range h1 (by omega), Option.some.injEq] at h
  obtain ⟨m, rfl⟩ : ∃ m, n = m + 1 := ⟨n - 1, by omega⟩
  rw [rcon_of_range (by omega) (by omega), ← h]
  rfl

/-- R107: round key `r` comes from the one before it and the constant of its round. -/
theorem nextRoundKey_roundKey {k : Block} {r : Nat} {v : Byte} (h1 : 1 ≤ r) (h10 : r ≤ 10)
    (h : rcon r = some v) : nextRoundKey (roundKey k (r - 1)) v = roundKey k r := by
  rw [rcon_of_range h1 h10, Option.some.injEq] at h
  obtain ⟨m, rfl⟩ : ∃ m, r = m + 1 := ⟨r - 1, by omega⟩
  rw [← h]
  rfl

/-- R24 (b): with the entries before `r` and the constant of round `r` right, KEXP makes entry `r` right too. -/
theorem writeNextRoundKey_extends {k : Block} {s : State} {r : Fin 11} (h1 : 1 ≤ r.val)
    (hrc : rcon r.val = some s.rc) (hrk : ∀ j : Fin 11, j.val < r.val → s.rk[j] = roundKey k j.val)
    (j : Fin 11) (hj : j.val < r.val + 1) : (writeNextRoundKey s r).rk[j] = roundKey k j.val := by
  have previous : s.readRoundKey ⟨r.val - 1, by omega⟩ = roundKey k (r.val - 1) :=
    hrk ⟨r.val - 1, by omega⟩ (by simp only; omega)
  rcases eq_or_ne r j with rfl | hne
  · simp [writeNextRoundKey, previous, nextRoundKey_roundKey h1 (by omega) hrc]
  · have apart : r.val ≠ j.val := fun h => hne (Fin.ext h)
    have kept : (writeNextRoundKey s r).rk[j] = s.rk[j] := by
      simp [writeNextRoundKey, Vector.getElem_set_ne, apart]
    rw [kept, hrk j (by omega)]

/-- R107: a store with all eleven round keys is the schedule. -/
theorem eq_expandKey {k : Block} {rk : Vector Block 11}
    (h : ∀ j : Fin 11, rk[j] = roundKey k j.val) : rk = expandKey k := by
  ext1 i hi
  rw [expandKey_getElem]
  exact h ⟨i, hi⟩

/-- R115: one full round of the pipeline. -/
theorem afterRound_succ (p : Block) (rk : Vector Block 11) {r : Fin 11} (h1 : 1 ≤ r.val)
    (h9 : r.val ≤ 9) : roundFn (afterRound p rk (r.val - 1)) rk[r] = afterRound p rk r.val := by
  have entry : fullRounds[r.val - 1]? = some r := by
    revert r
    decide
  have rounds : fullRounds.take r.val = fullRounds.take (r.val - 1) ++ [r] := by
    rw [← Nat.sub_add_cancel h1, List.take_add_one, Nat.sub_add_cancel h1, entry]
    rfl
  simp [afterRound, rounds]

/-! ### The invariant, phase by phase -/

section
variable {k p : Block} {e : Engine}

theorem tracks_of_keyexp (hph : e.ph = .keyexp) (h1 : 1 ≤ e.rnd.toNat) (h10 : e.rnd.toNat ≤ 10)
    (hrc : rcon e.rnd.toNat = some e.rc)
    (hrk : ∀ j : Fin 11, j.val < e.rnd.toNat → e.rk[j] = roundKey k j.val) (hst : e.st = p) :
    e.Tracks k p where
  legal := by simp [Engine.atLegalPosition, legalPosition, hph, h1, h10]
  expanding _ := ⟨hrc, hrk⟩
  expanded := by simp [hph]
  waiting _ := hst
  inRounds := by simp [hph]
  finished := by simp [hph]

theorem tracks_of_init (hph : e.ph = .init) (hrnd : e.rnd = 0) (hrk : e.rk = expandKey k)
    (hrc : e.rc = 0x36) (hst : e.st = p) : e.Tracks k p where
  legal := by simp [Engine.atLegalPosition, legalPosition, hph, hrnd]
  expanding := by simp [hph]
  expanded _ := ⟨hrk, hrc⟩
  waiting _ := hst
  inRounds := by simp [hph]
  finished := by simp [hph]

theorem tracks_of_round (hph : e.ph = .round) (h1 : 1 ≤ e.rnd.toNat) (h9 : e.rnd.toNat ≤ 9)
    (hrk : e.rk = expandKey k) (hrc : e.rc = 0x36)
    (hst : e.st = afterRound p (expandKey k) (e.rnd.toNat - 1)) : e.Tracks k p where
  legal := by simp [Engine.atLegalPosition, legalPosition, hph, h1, h9]
  expanding := by simp [hph]
  expanded _ := ⟨hrk, hrc⟩
  waiting := by simp [hph]
  inRounds _ := hst
  finished := by simp [hph]

theorem tracks_of_final (hph : e.ph = .final) (hrnd : e.rnd = 10) (hrk : e.rk = expandKey k)
    (hrc : e.rc = 0x36) (hst : e.st = afterRound p (expandKey k) 9) : e.Tracks k p where
  legal := by simp [Engine.atLegalPosition, legalPosition, hph, hrnd]
  expanding := by simp [hph]
  expanded _ := ⟨hrk, hrc⟩
  waiting := by simp [hph]
  inRounds _ := by simpa [hrnd] using hst
  finished := by simp [hph]

theorem tracks_of_done (hph : e.ph = .done) (hrnd : e.rnd = 0) (hrk : e.rk = expandKey k)
    (hrc : e.rc = 0x36) (hst : e.st = encrypt k p) : e.Tracks k p where
  legal := by simp [Engine.atLegalPosition, legalPosition, hph, hrnd]
  expanding := by simp [hph]
  expanded _ := ⟨hrk, hrc⟩
  waiting := by simp [hph]
  inRounds := by simp [hph]
  finished _ := hst

end

/-- R120: LOAD establishes the invariant for the sampled key and block. -/
theorem acceptRequest_tracks (s : State) :
    s.acceptRequest.toEngine.Tracks s.sampledKey s.sampledBlock := by
  refine tracks_of_keyexp rfl (by simp) (by simp) rfl (fun j hj => ?_) rfl
  obtain rfl : j = 0 := Fin.ext (Nat.lt_one_iff.mp hj)
  simp [roundKey]

/-! ### The busy edges -/

/-- R16: the position that follows a busy one. -/
def nextBusyPosition : Phase × RoundIndex → Phase × RoundIndex
  | (.keyexp, rnd) => if rnd = 10 then (.init, 0) else (.keyexp, rnd + 1)
  | (.init, _) => (.round, 1)
  | (.round, rnd) => if rnd = 9 then (.final, 10) else (.round, rnd + 1)
  | (.final, _) => (.done, 0)
  | position => position

/-- R127: the schedule passes the busy positions one by one. -/
theorem scheduledPosition_succ {n : Nat} (h : n < 21) :
    scheduledPosition (n + 1) = nextBusyPosition (scheduledPosition n) := by
  interval_cases n <;> rfl

/-- R127: the first 21 places of the schedule are busy ones. -/
theorem scheduledPosition_busy {n : Nat} (h : n < 21) {e : Engine}
    (he : e.position = scheduledPosition n) : e.busy = true := by
  have hph : e.ph = (scheduledPosition n).1 := congrArg Prod.fst he
  rw [busy_eq_true_iff, hph]
  interval_cases n <;> simp [scheduledPosition]

/-- What the next busy edge must do: it moves one place and keeps the invariant. -/
def AdvancesTracking (k p : Block) (s : State) : Prop :=
  ∃ t, step s = .next t ∧ t.position = nextBusyPosition s.position ∧ t.toEngine.Tracks k p

/-- R15: the round counter never wraps. -/
theorem toNat_add_one {rnd : RoundIndex} (h : rnd.toNat < 10) :
    (rnd + 1).toNat = rnd.toNat + 1 := by
  rw [BitVec.toNat_add]
  exact Nat.mod_eq_of_lt (Nat.lt_of_lt_of_le (Nat.succ_lt_succ h) (by decide))

/-- R24 (d): what ROUND computes at `RND` 1 to 9 from registers that track `k` and `p`. -/
theorem roundFn_of_tracks {k p : Block} {s : State} (h : s.toEngine.Tracks k p) (hph : s.ph = .round)
    {r : Fin 11} (hr : r.val = s.rnd.toNat) (h1 : 1 ≤ r.val) (h9 : r.val ≤ 9) :
    roundFn s.st (s.readRoundKey r) = afterRound p (expandKey k) r.val := by
  obtain ⟨hrk, -⟩ := h.expanded (.inr (.inl hph))
  rw [h.inRounds (.inl hph), State.readRoundKey, hrk, ← hr, afterRound_succ p _ h1 h9]

section
variable {k p : Block} {s : State} (h : s.toEngine.Tracks k p) (hrst : s.sample.rst = false)
include h hrst

/-- R121, `RND` 1 to 9. -/
theorem keyexp_below_ten_advances (hph : s.ph = .keyexp) (h1 : 1 ≤ s.rnd.toNat)
    (h9 : s.rnd.toNat ≤ 9) : AdvancesTracking k p s := by
  obtain ⟨hrc, hrk⟩ := h.expanding hph
  have hst := h.waiting (.inl hph)
  have hsucc := toNat_add_one (Nat.lt_succ_of_le h9)
  have not_last : s.rnd ≠ 10#4 := fun hten => by simp [hten] at h9
  have hstep := step_keyexp hrst hph h1 (by omega)
  rw [execKexp_below_ten _ s h1 h9] at hstep
  refine ⟨_, hstep, ?_, tracks_of_keyexp hph ?_ ?_ ?_ ?_ hst⟩
  · simp [Engine.position, nextBusyPosition, writeNextRoundKey, hph, not_last]
  · exact hsucc ▸ Nat.le_add_left 1 _
  · exact hsucc ▸ Nat.succ_le_succ h9
  · exact hsucc ▸ rcon_succ h1 h9 hrc
  · exact hsucc ▸ writeNextRoundKey_extends (r := ⟨s.rnd.toNat, by omega⟩) h1 hrc hrk

/-- R121, `RND` 10. -/
theorem keyexp_ten_advances (hph : s.ph = .keyexp) (hrnd : s.rnd = 10) :
    AdvancesTracking k p s := by
  obtain ⟨hrc, hrk⟩ := h.expanding hph
  have hst := h.waiting (.inl hph)
  have hstep := step_keyexp hrst hph (by simp [hrnd]) (by simp [hrnd])
  rw [hrnd] at hrc hrk
  rw [hrnd, execKexp_ten] at hstep
  refine ⟨_, hstep, ?_, tracks_of_init rfl rfl (eq_expandKey fun j => ?_) ?_ hst⟩
  · simp [Engine.position, nextBusyPosition, hph, hrnd]
  · exact writeNextRoundKey_extends (r := 10) (by decide) hrc hrk j j.isLt
  · exact (Option.some.inj hrc).symm

/-- R122. -/
theorem init_advances (hph : s.ph = .init) (hrnd : s.rnd = 0) : AdvancesTracking k p s := by
  obtain ⟨hrk, hrc⟩ := h.expanded (.inl hph)
  have hst := h.waiting (.inr hph)
  have hstep := step_init hrst hph hrnd
  rw [execInit_zero] at hstep
  refine ⟨_, hstep, ?_, tracks_of_round rfl (by simp) (by simp) hrk hrc ?_⟩
  · simp [Engine.position, nextBusyPosition, hph]
  · simp [State.readRoundKey, hst, hrk, afterRound_zero]

/-- R123, `RND` 1 to 8. -/
theorem round_below_nine_advances (hph : s.ph = .round) (h1 : 1 ≤ s.rnd.toNat)
    (h8 : s.rnd.toNat ≤ 8) : AdvancesTracking k p s := by
  obtain ⟨hrk, hrc⟩ := h.expanded (.inr (.inl hph))
  have hsucc := toNat_add_one (rnd := s.rnd) (by omega)
  have hround := roundFn_of_tracks h hph (r := ⟨s.rnd.toNat, by omega⟩) rfl h1 (Nat.le_succ_of_le h8)
  have not_last : s.rnd ≠ 9#4 := fun hnine => by simp [hnine] at h8
  have hstep := step_round hrst hph h1 (by omega)
  rw [execRound_below_nine _ s h1 h8] at hstep
  refine ⟨_, hstep, ?_, tracks_of_round hph ?_ ?_ hrk hrc ?_⟩
  · simp [Engine.position, nextBusyPosition, hph, not_last]
  · exact hsucc ▸ Nat.le_add_left 1 _
  · exact hsucc ▸ Nat.succ_le_succ h8
  · exact hsucc ▸ hround

/-- R123, `RND` 9. -/
theorem round_nine_advances (hph : s.ph = .round) (hrnd : s.rnd = 9) : AdvancesTracking k p s := by
  obtain ⟨hrk, hrc⟩ := h.expanded (.inr (.inl hph))
  have hstep := step_round hrst hph (by simp [hrnd]) (by simp [hrnd])
  rw [hrnd, execRound_nine] at hstep
  refine ⟨_, hstep, ?_, tracks_of_final rfl rfl hrk hrc ?_⟩
  · simp [Engine.position, nextBusyPosition, hph, hrnd]
  · exact roundFn_of_tracks h hph (r := 9) (by simp [hrnd]) (by decide) (by decide)

/-- R124. -/
theorem final_advances (hph : s.ph = .final) (hrnd : s.rnd = 10) : AdvancesTracking k p s := by
  obtain ⟨hrk, hrc⟩ := h.expanded (.inr (.inr (.inl hph)))
  have hst := h.inRounds (.inr hph)
  have hstep := step_final hrst hph hrnd
  rw [execFinal_ten] at hstep
  refine ⟨_, hstep, ?_, tracks_of_done rfl rfl hrk hrc ?_⟩
  · simp [Engine.position, nextBusyPosition, hph]
  · simp [State.readRoundKey, hst, hrk, hrnd, encrypt, cipher]

/-- R16, R24: every busy edge without reset moves one place and keeps the invariant. -/
theorem busy_advances (hbusy : s.busy = true) : AdvancesTracking k p s := by
  rw [busy_eq_true_iff] at hbusy
  rcases legalPosition_cases h.legal with ⟨hph, -⟩ | ⟨hph, h1, h10⟩ | ⟨hph, hrnd⟩ | ⟨hph, h1, h9⟩ |
    ⟨hph, hrnd⟩ | ⟨hph, -⟩
  · simp [hph] at hbusy
  · rcases Nat.lt_or_eq_of_le h10 with below | last
    · exact keyexp_below_ten_advances h hrst hph h1 (Nat.le_of_lt_succ below)
    · exact keyexp_ten_advances h hrst hph (BitVec.eq_of_toNat_eq last)
  · exact init_advances h hrst hph hrnd
  · rcases Nat.lt_or_eq_of_le h9 with below | last
    · exact round_below_nine_advances h hrst hph h1 (Nat.le_of_lt_succ below)
    · exact round_nine_advances h hrst hph (BitVec.eq_of_toNat_eq last)
  · exact final_advances h hrst hph hrnd
  · simp [hph] at hbusy

end

/-- R127: after edge `n` of an encryption the engine is at the scheduled position and its registers track the request. -/
theorem request_follows_schedule {s : State} (haccept : s.acceptsRequest = true)
    (hquiet : s.noResetFrom 1 21) {n : Nat} (hn : n ≤ 21) :
    ∃ t, runSteps (n + 1) s = .next t ∧ t.position = scheduledPosition n ∧
      t.toEngine.Tracks s.sampledKey s.sampledBlock := by
  induction n with
  | zero =>
    exact ⟨_, (runSteps_succ 0 (step_accept haccept)).trans (runSteps_zero _), rfl,
      acceptRequest_tracks s⟩
  | succ n ih =>
    obtain ⟨t, hrun, hpos, htracks⟩ := ih (by omega)
    have hrst : t.sample.rst = false := by
      rw [State.sample, runSteps_sampleAt hrun]
      exact hquiet (n + 1 + 0) (by omega) (by omega)
    obtain ⟨u, hstep, hnext, hkept⟩ :=
      busy_advances htracks hrst (scheduledPosition_busy (by omega) hpos)
    exact ⟨u, runSteps_snoc hrun hstep,
      by rw [hnext, hpos, scheduledPosition_succ (by omega)], hkept⟩

/-- R130: 22 edges after an accepted request the registers are functions of its key and block alone. -/
theorem request_completes {s : State} (haccept : s.acceptsRequest = true)
    (hquiet : s.noResetFrom 1 21) :
    ∃ t, runSteps 22 s = .next t ∧ t.position = (.done, 0) ∧
      t.st = encrypt s.sampledKey s.sampledBlock ∧ t.rk = expandKey s.sampledKey ∧ t.rc = 0x36 ∧
      t.ctOut = pack (encrypt s.sampledKey s.sampledBlock) := by
  obtain ⟨t, hrun, hpos, htracks⟩ := request_follows_schedule haccept hquiet (Nat.le_refl 21)
  have hdone : t.ph = .done := congrArg Prod.fst hpos
  obtain ⟨hrk, hrc⟩ := htracks.expanded (.inr (.inr (.inr hdone)))
  have hst := htracks.finished hdone
  exact ⟨t, hrun, hpos, hst, hrk, hrc, by rw [ctOut_of_done hdone, hst]⟩

/-- Settles O56: both encryptions end in the same functions of the common key and block. -/
theorem equalRequestsLeaveEqualRegisters : Obligations.EqualRequestsLeaveEqualRegisters := by
  intro s s' haccept haccept' hkey hblock hquiet hquiet'
  have sameKey : s.sampledKey = s'.sampledKey := congrArg unpack hkey
  have sameBlock : s.sampledBlock = s'.sampledBlock := congrArg unpack hblock
  obtain ⟨t, hrun, -, hst, hrk, hrc, hct⟩ := request_completes haccept hquiet
  obtain ⟨t', hrun', -, hst', hrk', hrc', hct'⟩ := request_completes haccept' hquiet'
  rw [← sameKey, ← sameBlock] at hst' hct'
  rw [← sameKey] at hrk'
  exact ⟨t, t', hrun, hrun', hst.trans hst'.symm, hrk.trans hrk'.symm, hrc.trans hrc'.symm,
    hct.trans hct'.symm⟩

end Sys2Proof.Proofs
end

