-- ==== Sys2Proof/Proofs/ByteOrders.lean ====
section
/-! SUPPORT. The two byte orders of a block: on the 128-bit ports (spec/20_memory.md R34) and in the 4×4 matrix of the State
(R33). -/

namespace Sys2Proof.Proofs
open Sys2Proof.Machine Sys2Proof.Laws

/-! ### The 128-bit ports -/

/-- R34: a port value is put together again from its bytes. -/
@[simp] theorem pack_unpack (v : BitVec 128) : pack (unpack v) = v := by
  have words01 : v.extractLsb' 96 32 ++ v.extractLsb' 64 32 = v.extractLsb' 64 64 :=
    slice_append v 64 32 32
  have words02 : v.extractLsb' 64 64 ++ v.extractLsb' 32 32 = v.extractLsb' 32 96 :=
    slice_append v 32 32 64
  have words03 : v.extractLsb' 32 96 ++ v.extractLsb' 0 32 = v.extractLsb' 0 128 :=
    slice_append v 0 32 96
  simp only [pack, unpack, packWord_unpackWord]
  rw [words01, words02, words03, slice_whole]

/-- R34: `unpack(v)[i] = v[127 − 8·i : 120 − 8·i]`. -/
theorem unpack_byte (v : BitVec 128) (i : Fin 16) :
    byteAt (unpack v) i = v.extractLsb' (120 - 8 * i.val) 8 := by
  rw [← pack_byte, pack_unpack]

/-- R34: the bytes of a block are read back from its port value. -/
@[simp] theorem unpack_pack (a : Block) : unpack (pack a) = a :=
  block_ext_bytes fun i => (unpack_byte (pack a) i).trans (pack_byte a i)

/-- Settles O16: `pack_unpack` carries the byte order of `pack` over to `unpack`, and the bytes give the other inverse. -/
theorem portBytesAreMostSignificantFirst : Obligations.PortBytesAreMostSignificantFirst :=
  ⟨unpack_byte, pack_byte, unpack_pack, pack_unpack, by decide⟩

/-! ### The matrix of the State -/

/-- R33: the entries of the matrix are those of the matrix view of the block. -/
theorem serialize_entry (a : Block) {r c : Nat} (hr : r < 4) (hc : c < 4) :
    ((serialize a)[r])[c] = matrixAt a ⟨r, hr⟩ ⟨c, hc⟩ := by
  simp [serialize]

/-- R33: byte `i` of a block stands at row `i mod 4`, column `i / 4`. -/
theorem matrixAt_of_byte (a : Block) (i : Fin 16) :
    matrixAt a ⟨i.val % 4, by omega⟩ ⟨i.val / 4, by omega⟩ = byteAt a i :=
  congrArg (byteAt a) (Fin.ext (Nat.mod_add_div i.val 4))

/-- R33, the inverse mapping: byte `i` of the block is the entry at row `i mod 4`, column `i / 4`. -/
theorem byteAt_deserialize (m : Matrix4) (i : Fin 16) :
    byteAt (deserialize m) i = (m[i.val % 4])[i.val / 4] :=
  byteAt_blockOfBytes _ i

/-- R33, the inverse mapping: the entry at row `r`, column `c` is byte `r + 4c` of the block. -/
theorem matrixAt_deserialize (m : Matrix4) (r c : Fin 4) :
    matrixAt (deserialize m) r c = (m[r])[c] := by
  have row : (r.val + 4 * c.val) % 4 = r.val := by omega
  have column : (r.val + 4 * c.val) / 4 = c.val := by omega
  rw [matrixAt, byteAt_deserialize]
  simp only [row, column, Fin.getElem_fin]

/-- R33: a block is read back from its matrix. -/
@[simp] theorem deserialize_serialize (a : Block) : deserialize (serialize a) = a :=
  block_ext_bytes fun i => by rw [byteAt_deserialize, serialize_entry, matrixAt_of_byte]

/-- R33: a matrix is filled again from its block. -/
@[simp] theorem serialize_deserialize (m : Matrix4) : serialize (deserialize m) = m := by
  ext r hr c hc
  rw [serialize_entry _ hr hc, matrixAt_deserialize]
  rfl

/-- R33, R36: column `c` of the State is word `c` of the block. -/
theorem wordByte_eq_matrixAt (a : Block) (r c : Fin 4) :
    wordByte (wordOf a c) r = matrixAt a r c := by
  have word : (r.val + 4 * c.val) / 4 = c.val := by omega
  have byte : (r.val + 4 * c.val) % 4 = r.val := by omega
  simp only [matrixAt, byteAt, word, byte]

/-- Settles O17: the entries of both mappings, from which they are inverse byte by byte and entry by entry. -/
theorem blockFillsTheMatrixColumnMajor : Obligations.BlockFillsTheMatrixColumnMajor :=
  ⟨fun a i => (serialize_entry a _ _).trans (matrixAt_of_byte a i),
    fun a r c => serialize_entry a r.isLt c.isLt,
    matrixAt_deserialize, deserialize_serialize, serialize_deserialize, wordByte_eq_matrixAt⟩

end Sys2Proof.Proofs
end

