-- ==== Sys2Proof/Proofs/SBox.lean ====
section
/-! SUPPORT. The S-box ROM (spec/40_sbox.md): every address is inside the table, and no entry occurs twice. -/

namespace Sys2Proof.Proofs
open Sys2Proof.Machine Sys2Proof.Laws

/-- R31: a byte is an address inside the ROM. -/
theorem toNat_lt_sboxTable_length (b : Byte) : b.toNat < sboxTable.length :=
  sboxTable_length ▸ b.isLt

/-- R70: `subst(b) = SBOX[b]`. -/
theorem subst_eq_getElem (b : Byte) :
    subst b = sboxTable[b.toNat]'(toNat_lt_sboxTable_length b) :=
  (List.getElem_eq_getD 0x00).symm

/-- R71: the entries of the ROM are distinct. -/
theorem sboxTable_nodup : sboxTable.Nodup := by decide +kernel

/-- R72: different bytes have different substitution values. -/
theorem subst_injective : Function.Injective subst := fun a b h => by
  rw [subst_eq_getElem, subst_eq_getElem, sboxTable_nodup.getElem_inj_iff] at h
  exact BitVec.eq_of_toNat_eq h

/-- R70: 0x52 is mapped to zero, and by injectivity it alone. -/
theorem subst_eq_zero_iff (b : Byte) : subst b = 0x00 ↔ b = 0x52 := by
  have zero : subst 0x52 = 0x00 := by decide
  rw [← zero, subst_injective.eq_iff]

/-- Settles O22: the lookup stays inside the table, whose entries are distinct; the four named entries are read off. -/
theorem substReadsTheRom : Obligations.SubstReadsTheRom :=
  ⟨sboxTable_length,
    fun b => List.getElem?_eq_some_iff.mpr ⟨toNat_lt_sboxTable_length b, (subst_eq_getElem b).symm⟩,
    by decide, by decide, subst_eq_zero_iff, by decide⟩

end Sys2Proof.Proofs
end

