-- ==== Sys2Proof/Proofs/GaloisField.lean ====
section
/-! SUPPORT. The GF(2^8) units (spec/41_gf_units.md): `xtime` as a shift and a conditional reduction, and its bits. -/

namespace Sys2Proof.Proofs
open Sys2Proof.Machine

/-- R76: the low eight bits of the nine-bit shift are the shift within eight bits. -/
theorem extractLsb_zeroExtend_shiftLeft_one (b : Byte) :
    (b.zeroExtend 9 <<< 1).extractLsb' 0 8 = b <<< 1 := by
  rw [← BitVec.setWidth_eq_extractLsb' (by decide), BitVec.setWidth_shiftLeft_of_le (by decide),
    BitVec.setWidth_setWidth_of_le _ (by decide), BitVec.setWidth_eq]

/-- R76: `xtime` shifts left within eight bits and reduces if the bit shifted out was 1. -/
theorem xtime_eq_ite (b : Byte) :
    xtime b = if b.getLsbD 7 then (b <<< 1) ^^^ 0x1B else b <<< 1 := by
  rw [xtime, extractLsb_zeroExtend_shiftLeft_one, Config.gfReduce]

/-- R76: bit by bit, the shift and, where bit 7 of `b` was 1, the bits of 0x1B. -/
theorem xtime_getLsbD (b : Byte) (i : Nat) :
    (xtime b).getLsbD i =
      ((b <<< 1).getLsbD i ^^ (b.getLsbD 7 && Config.gfReduce.getLsbD i)) := by
  rw [xtime_eq_ite]
  cases b.getLsbD 7 with
  | false => simp
  | true => simp [Config.gfReduce]

/-- R76: the lowest bit is the bit shifted out. -/
theorem xtime_getLsbD_zero (b : Byte) : (xtime b).getLsbD 0 = b.getLsbD 7 := by
  rw [xtime_getLsbD]
  simp [Config.gfReduce]

/-- R76: every other bit is the one below it, XORed with the bit shifted out where 0x1B has a 1. -/
theorem xtime_getLsbD_succ (b : Byte) {i : Nat} (h : i < 7) :
    (xtime b).getLsbD (i + 1) =
      (b.getLsbD i ^^ (b.getLsbD 7 && Config.gfReduce.getLsbD (i + 1))) := by
  have inside : i + 1 < 8 := Nat.succ_lt_succ h
  rw [xtime_getLsbD, BitVec.getLsbD_shiftLeft]
  simp [inside]

/-- Settles O19: the shift and its bits; where 0x1B has a 0 the bit equation is a plain shift. -/
theorem xtimeMultipliesByX : Obligations.XtimeMultipliesByX := by
  refine ⟨xtime_eq_ite, fun b => ⟨?_, ?_, ?_, ?_, ?_, ?_, ?_, xtime_getLsbD_zero b⟩, by decide⟩
  all_goals
    rw [xtime_getLsbD_succ b (by decide)]
    simp [Config.gfReduce]

/-- Settles O20: the three multipliers are written through `xtime`; the corner cases are read off. -/
theorem constantMultipliersFromXtime : Obligations.ConstantMultipliersFromXtime :=
  ⟨fun _ => ⟨rfl, rfl, rfl⟩, by decide⟩

end Sys2Proof.Proofs
end

