-- ==== Sys2Proof/Proofs/RoundTransforms.lean ====
section
/-! SUPPORT. MixColumns and AddRoundKey as column-wise operations (spec/42_round_transforms.md R87 to R89), and the worked
examples of the two round functions (R90, R91). -/

namespace Sys2Proof.Proofs
open Sys2Proof.Machine Sys2Proof.Laws

/-- Two words with the same four bytes are equal. -/
theorem word_ext_bytes {a b : Word} (h : ∀ i, wordByte a i = wordByte b i) : a = b :=
  word_ext (h 0) (h 1) (h 2) (h 3)

/-! ### MixColumns -/

/-- R78, R79: the multipliers by 2 and by 3 differ by the byte itself. -/
theorem mul2_xor_mul3 (b : Byte) : mul2 b ^^^ mul3 b = b := by
  simp [mul2, mul3]

/-- R87: each row of the coefficient matrix sums to 1, so a column of four equal bytes is kept. -/
theorem mixColumn_of_equal_bytes (v : Byte) : mixColumn ⟨v, v, v, v⟩ = ⟨v, v, v, v⟩ := by
  have mul3_xor_mul2 : mul3 v ^^^ mul2 v = v := by rw [BitVec.xor_comm, mul2_xor_mul3]
  apply word_ext
  · simp [mixColumn, mul1, mul2_xor_mul3]
  · simp [mixColumn, mul1, BitVec.xor_assoc v, mul2_xor_mul3]
  · simp [mixColumn, mul1, mul2_xor_mul3]
  · simp [mixColumn, mul1, BitVec.xor_assoc (mul3 v), mul3_xor_mul2]

/-- R88: column `c` of the result is the single-column unit on column `c`. -/
theorem wordOf_mixColumns (s : Block) (c : Fin 4) :
    wordOf (mixColumns s) c = mixColumn (wordOf s c) := by
  fin_cases c <;> rfl

/-- R33: States that agree on the four rows of a column have the same word there. -/
theorem wordOf_eq_of_matrixAt {s s' : Block} {c : Fin 4}
    (h : ∀ r, matrixAt s r c = matrixAt s' r c) : wordOf s c = wordOf s' c :=
  word_ext_bytes fun r => by rw [wordByte_eq_matrixAt, wordByte_eq_matrixAt, h r]

/-- R88: "No byte of one column influences another column." -/
theorem matrixAt_mixColumns_congr {s s' : Block} {c : Fin 4}
    (h : ∀ r, matrixAt s r c = matrixAt s' r c) (r : Fin 4) :
    matrixAt (mixColumns s) r c = matrixAt (mixColumns s') r c := by
  rw [← wordByte_eq_matrixAt, ← wordByte_eq_matrixAt, wordOf_mixColumns, wordOf_mixColumns,
    wordOf_eq_of_matrixAt h]

/-- R88: a State of sixteen equal bytes is kept, as each of its columns is. -/
theorem mixColumns_of_equal_bytes (v : Byte) :
    mixColumns (blockOfBytes fun _ => v) = blockOfBytes fun _ => v :=
  have column := mixColumn_of_equal_bytes v
  block_ext column column column column

/-- Settles O27: the result is given column by column, and a column by its four bytes. -/
theorem mixColumnsActsOnEachColumn : Obligations.MixColumnsActsOnEachColumn :=
  ⟨wordOf_mixColumns, fun _ _ _ => matrixAt_mixColumns_congr, mixColumns_of_equal_bytes, by decide⟩

/-! ### AddRoundKey -/

/-- R80: XOR of words is XOR of their bytes. -/
@[simp] theorem wordByte_xorWord (a b : Word) (i : Fin 4) :
    wordByte (xorWord a b) i = wordByte a i ^^^ wordByte b i := by
  fin_cases i <;> rfl

/-- R89: column `c` of the result is the XOR of the columns `c`. -/
@[simp] theorem wordOf_addRoundKey (s k : Block) (c : Fin 4) :
    wordOf (addRoundKey s k) c = xorWord (wordOf s c) (wordOf k c) := by
  fin_cases c <;> rfl

/-- R89: each byte is XORed with the round-key byte of the same index. -/
theorem byteAt_addRoundKey (s k : Block) (i : Fin 16) :
    byteAt (addRoundKey s k) i = byteAt s i ^^^ byteAt k i := by
  simp [byteAt]

/-- R89: the zero key changes nothing. -/
theorem addRoundKey_zero (s : Block) : addRoundKey s Block.zero = s :=
  block_ext (xorWord_zero _) (xorWord_zero _) (xorWord_zero _) (xorWord_zero _)

/-- R89: the same key added twice cancels. -/
theorem addRoundKey_cancel (s k : Block) : addRoundKey (addRoundKey s k) k = s :=
  block_ext (xorWord_cancel _ _) (xorWord_cancel _ _) (xorWord_cancel _ _) (xorWord_cancel _ _)

/-- R89: a State used as its own key leaves nothing. -/
theorem addRoundKey_self (s : Block) : addRoundKey s s = Block.zero :=
  block_ext (xorWord_self _) (xorWord_self _) (xorWord_self _) (xorWord_self _)

/-- Settles O28: the matrix view names the byte `r + 4c` (R33), so its clause is the serialised one at that index. -/
theorem addRoundKeyXorsEveryByte : Obligations.AddRoundKeyXorsEveryByte :=
  ⟨byteAt_addRoundKey, fun s k _ _ => byteAt_addRoundKey s k _, addRoundKey_zero,
    addRoundKey_cancel, addRoundKey_self, by decide⟩

/-! ### The round functions -/

/-- Settles O29: the order of the units is the definition of the two round functions, and the worked examples of rounds 1
and 10 are evaluated. -/
theorem roundFunctionsComposeTheUnits : Obligations.RoundFunctionsComposeTheUnits :=
  ⟨fun _ _ => rfl, fun _ _ => rfl, by decide, by decide⟩

end Sys2Proof.Proofs
end

