-- ==== Sys2Proof/Proofs/KeyScheduleUnits.lean ====
section
/-! SUPPORT. The word units of the key schedule (spec/43_key_schedule.md R102 to R105), each given by the bytes of its
result. -/

namespace Sys2Proof.Proofs
open Sys2Proof.Machine Sys2Proof.Laws

/-! ### RotWord and SubWord -/

/-- R102: every byte comes from the place after it; the sum `i + 1` is taken modulo 4. -/
@[simp] theorem wordByte_rotWord (w : Word) (i : Fin 4) :
    wordByte (rotWord w) i = wordByte w (i + 1) := by
  fin_cases i <;> rfl

/-- R102: four rotations bring every byte back to its place. -/
theorem rotWord_four_times (w : Word) : rotWord (rotWord (rotWord (rotWord w))) = w :=
  word_ext_bytes fun i => by
    have aroundOnce : i + 1 + 1 + 1 + 1 = i := by omega
    simp only [wordByte_rotWord, aroundOnce]

/-- R104: the substitution works byte by byte. -/
@[simp] theorem wordByte_subWord (w : Word) (i : Fin 4) :
    wordByte (subWord w) i = subst (wordByte w i) := by
  fin_cases i <;> rfl

/-- Settles O32: the three units are given byte by byte, and four rotations of a word come around; the examples are
evaluated. -/
theorem wordUnitsRotateXorSubstitute : Obligations.WordUnitsRotateXorSubstitute :=
  ⟨fun _ _ _ _ => rfl, fun _ => rfl, rotWord_four_times, by decide, wordByte_xorWord, by decide,
    wordByte_subWord, by decide, by decide⟩

/-! ### The transform g -/

/-- R105: the substitution is the same at every place, so it may be done before or after the rotation. -/
theorem subWord_rotWord (w : Word) : subWord (rotWord w) = rotWord (subWord w) :=
  word_ext_bytes fun i => by simp only [wordByte_rotWord, wordByte_subWord]

/-- R105: the bytes of g. -/
theorem gTransform_bytes (w : Word) (rc : Byte) :
    gTransform w rc = ⟨subst w.b1 ^^^ rc, subst w.b2, subst w.b3, subst w.b0⟩ := rfl

/-- Settles O33: the bytes of g are those of its definition, and the units commute byte by byte; the corner case and the
worked example are evaluated. -/
theorem gTransformRotatesSubstitutesAddsTheConstant :
    Obligations.GTransformRotatesSubstitutesAddsTheConstant :=
  ⟨gTransform_bytes, subWord_rotWord, by decide, by decide⟩

end Sys2Proof.Proofs
end

