-- ==== Sys2Proof/Proofs/Controller.lean ====
section
/-! SUPPORT. The round pipeline as a function (spec/44_controller.md R115), and RESET, INIT, ROUND and FINAL with their
control words, results and frames (R118, R122 to R124). -/

namespace Sys2Proof.Proofs
open Sys2Proof.Machine Sys2Proof.Laws

/-- Settles O36: each full round is the one that `afterRound_succ` appends to the pipeline; the two ends are the
definition. -/
theorem cipherIsTheRoundPipeline : Obligations.CipherIsTheRoundPipeline :=
  fun p rk => ⟨afterRound_zero p rk, fun _ h1 h9 => (afterRound_succ p rk h1 h9).symm, rfl⟩

/-! ### RESET -/

/-- R22: every byte of the zero block is 0x00. -/
theorem byteAt_zero (i : Fin 16) : byteAt Block.zero i = 0x00 := by
  fin_cases i <;> rfl

/-- R118: RESET completes in every state. -/
theorem exec_reset (start : Bool) (ph : Phase) (rnd : RoundIndex) (s : State) :
    exec (.reset start ph rnd) s = .next s.zeroise := rfl

/-- R54: with `rst = 1` every word is RESET. -/
theorem decode_reset (start : Bool) (ph : Phase) (rnd : RoundIndex) :
    decode (controlWord true start ph rnd) = .ok (.reset start ph rnd) :=
  (decode_controlWord true start ph rnd).trans (if_pos rfl)

/-- Settles O39: the state after RESET is `zeroise`, which leaves the reset registers and the host's side, and a second
time changes nothing. -/
theorem resetWritesEveryRegister : Obligations.ResetWritesEveryRegister := by
  intro start ph rnd s
  have entries (j : Fin 11) (i : Fin 16) : byteAt s.zeroise.rk[j] i = 0x00 := by
    have zero : s.zeroise.rk[j] = Block.zero := Vector.getElem_replicate j.isLt
    rw [zero, byteAt_zero]
  exact ⟨rfl, decode_reset start ph rnd, s.zeroise, exec_reset start ph rnd s, rfl, rfl, rfl,
    byteAt_zero, entries, rfl, rfl, rfl, rfl, rfl, exec_reset start ph rnd s.zeroise⟩

/-! ### INIT, ROUND and FINAL -/

/-- Settles O42: what INIT writes is `execInit_zero`; the zero key is the unit of AddRoundKey. -/
theorem initAddsTheFirstRoundKey : Obligations.InitAddsTheFirstRoundKey := by
  intro start s
  refine ⟨by cases start <;> rfl, _, execInit_zero start s, rfl, rfl, rfl, rfl, rfl, rfl, rfl, ?_⟩
  intro hzero
  simp only [State.writePh_st, State.writeRnd_st, State.writeSt_st, State.readRoundKey]
  exact hzero ▸ addRoundKey_zero s.st

/-- R123: ROUND at 1 to 9, with the round index as a number. -/
theorem execRound_ofNat (start : Bool) {n : Nat} (h1 : 1 ≤ n) (h9 : n ≤ 9) (s : State) :
    execRound start (BitVec.ofNat 4 n) s =
      let t := (s.writeSt (roundFn s.st s.rk[n])).writeRnd (BitVec.ofNat 4 (n + 1))
      .next (if n = 9 then t.writePh .final else t) := by
  have ninth : ((⟨n, by omega⟩ : Fin 11) = 9) = (n = 9) := propext Fin.ext_iff
  simp only [execRound, roundEntry_ofNat h1 h9, ninth, BitVec.ofNat_add, apply_ite Host.Outcome.next]
  rfl

/-- Settles O43: `execRound_ofNat`; only the ninth round writes `PH`. -/
theorem roundAppliesOneFullRound : Obligations.RoundAppliesOneFullRound := by
  intro start n h1 h9 s
  refine ⟨rfl, _, execRound_ofNat start h1 h9 s, ?_⟩
  by_cases last : n = 9
  · subst last
    exact ⟨rfl, rfl, fun _ => ⟨rfl, rfl⟩, fun h => absurd rfl h, rfl, rfl, rfl, rfl⟩
  · rw [if_neg last]
    exact ⟨rfl, rfl, fun h => absurd h last, fun _ => rfl, rfl, rfl, rfl, rfl⟩

/-- Settles O44: what FINAL writes is `execFinal_ten`; in DONE the port `ct_out` shows the packed State. -/
theorem finalAppliesTheLastRound : Obligations.FinalAppliesTheLastRound := by
  intro start s
  exact ⟨by cases start <;> rfl, _, execFinal_ten start s, rfl, rfl, rfl, rfl, rfl, rfl, rfl, rfl,
    ctOut_of_done rfl⟩

end Sys2Proof.Proofs
end

