-- ==== Sys2Proof/Proofs/Resting.lean ====
section
/-! SUPPORT. The two resting positions, (IDLE, 0) and (DONE, 0): the operation each edge selects there, and runs with no
request (spec/44_controller.md R119, R125). -/

namespace Sys2Proof.Proofs
open Sys2Proof.Machine Sys2Proof.Laws

/-- R119: IDLE completes in every state and changes nothing. -/
theorem exec_idle_zero (s : State) : exec (.idle 0) s = .next s := whenRoundZero_next.mpr ⟨rfl, rfl⟩

/-- R125: HOLD completes in every state and changes nothing. -/
theorem exec_hold_zero (s : State) : exec (.hold 0) s = .next s := whenRoundZero_next.mpr ⟨rfl, rfl⟩

section
variable {s : State} (hrnd : s.rnd = 0) (hrst : s.sample.rst = false)
include hrnd hrst

/-- R119. -/
theorem decode_idle (hph : s.ph = .idle) (hstart : s.sample.start = false) :
    decode s.cw = .ok (.idle 0) := by
  simp [decode_cw, selectByPhase, hrst, hph, hstart, hrnd]

/-- R125. -/
theorem decode_hold (hph : s.ph = .done) (hstart : s.sample.start = false) :
    decode s.cw = .ok (.hold 0) := by
  simp [decode_cw, selectByPhase, hrst, hph, hstart, hrnd]

/-- R120: a request is accepted in DONE. -/
theorem decode_loadDone (hph : s.ph = .done) (hstart : s.sample.start = true) :
    decode s.cw = .ok (.loadDone 0) := by
  simp [decode_cw, selectByPhase, hrst, hph, hstart, hrnd]

/-- R119, R125: at rest an edge with no request only spends the sample. -/
theorem step_resting (hrest : s.ph = .idle ∨ s.ph = .done) (hstart : s.sample.start = false) :
    step s = .next s.nextEdge := by
  rcases hrest with hidle | hdone
  · rw [step_of_decode (decode_idle hrnd hrst hidle hstart), exec_idle_zero, afterEdge]
  · rw [step_of_decode (decode_hold hrnd hrst hdone hstart), exec_hold_zero, afterEdge]

end

/-- R119, R125: at rest the registers stay for any number of edges with no request; there is no time-out. -/
theorem runSteps_resting {n : Nat} {s : State} (hrest : s.ph = .idle ∨ s.ph = .done) (hrnd : s.rnd = 0)
    (hquiet : ∀ k, k < n → (s.sampleAt k).rst = false ∧ (s.sampleAt k).start = false) :
    ∃ t, runSteps n s = .next t ∧ t.toEngine = s.toEngine := by
  induction n generalizing s with
  | zero => exact ⟨s, rfl, rfl⟩
  | succ n ih =>
    obtain ⟨hrst, hstart⟩ := hquiet 0 n.succ_pos
    have hstep := step_resting hrnd hrst hrest hstart
    have quiet_next : ∀ k, k < n →
        (s.nextEdge.sampleAt k).rst = false ∧ (s.nextEdge.sampleAt k).start = false := by
      intro k hk
      rw [State.nextEdge_sampleAt]
      exact hquiet (k + 1) (Nat.succ_lt_succ hk)
    obtain ⟨t, hrun, hregs⟩ := ih (s := s.nextEdge) hrest hrnd quiet_next
    exact ⟨t, (runSteps_succ n hstep).trans hrun, hregs⟩

/-- Settles O46: the run keeps the registers (`runSteps_resting`), and the outputs are functions of them. -/
theorem idleWaitsForStart : Obligations.IdleWaitsForStart := by
  refine ⟨rfl, exec_idle_zero, fun s hph hrnd hrst => decode_idle hrnd hrst hph, ?_⟩
  intro n s hph hrnd hquiet
  obtain ⟨t, hrun, hregs⟩ := runSteps_resting (.inl hph) hrnd hquiet
  refine ⟨t, hrun, hregs, ?_⟩
  rw [hregs]
  simp [Engine.done, Engine.busy, Engine.ctOut, hph]

/-- Settles O47: the run keeps the registers (`runSteps_resting`), `ST` with the ciphertext among them. -/
theorem holdKeepsTheCiphertext : Obligations.HoldKeepsTheCiphertext := by
  refine ⟨rfl, exec_hold_zero, fun s hph hrnd hrst => decode_hold hrnd hrst hph, ?_,
    fun s hph hrnd hrst => decode_loadDone hrnd hrst hph⟩
  intro n s hph hrnd hquiet
  obtain ⟨t, hrun, hregs⟩ := runSteps_resting (.inr hph) hrnd hquiet
  exact ⟨t, hrun, hregs, by rw [hregs, done_eq_true_iff, hph], by rw [hregs, ctOut_of_done hph]⟩

end Sys2Proof.Proofs
end

