-- ==== Sys2Proof/Proofs/Adapter.lean ====
section
/-! SUPPORT. The boundary adapter (spec/60_exceptions.md R140 to R144): the error the length check answers, and that both
forms of the adapter, the function and the host driving an engine, end in it. -/

namespace Sys2Proof.Proofs
open Sys2Proof.Machine

section
variable {key plaintext : List Byte}

/-- R141, R143: the key is checked first, so the block's length plays no part. -/
theorem boundaryCheck_of_key_length_ne (hkey : key.length ≠ 16) :
    boundaryCheck key plaintext = .error (.invalidKeyLength 16 key.length) :=
  if_pos hkey

/-- R141. -/
theorem boundaryCheck_of_plaintext_length_ne (hkey : key.length = 16) (hplain : plaintext.length ≠ 16) :
    boundaryCheck key plaintext = .error (.invalidBlockLength 16 plaintext.length) :=
  (if_neg (not_not_intro hkey)).trans (if_pos hplain)

theorem encryptBytes_of_error {f : Fault} (h : boundaryCheck key plaintext = .error f) :
    encryptBytes key plaintext = .error f := by
  rw [encryptBytes, h]

/-- R144: the error comes before the engine is touched, so its state plays no part. -/
theorem adapterCall_of_error {f : Fault} (h : boundaryCheck key plaintext = .error f) (s : State) :
    adapterCall key plaintext s = .fault f := by
  rw [adapterCall, h]

end

/-- Settles O57: the check answers the key's error first, then the block's, and both forms of the adapter pass it on. -/
theorem adapterRejectsWrongLengths : Obligations.AdapterRejectsWrongLengths := by
  intro key plaintext
  refine ⟨fun hkey => ?_, fun hkey hplain => ?_, fun s => ⟨fun hkey => ?_, fun hkey hplain => ?_⟩⟩
  · exact ⟨encryptBytes_of_error (boundaryCheck_of_key_length_ne hkey), rfl⟩
  · exact ⟨encryptBytes_of_error (boundaryCheck_of_plaintext_length_ne hkey hplain), rfl⟩
  · exact adapterCall_of_error (boundaryCheck_of_key_length_ne hkey) s
  · exact adapterCall_of_error (boundaryCheck_of_plaintext_length_ne hkey hplain) s

end Sys2Proof.Proofs
end

