-- ==== Sys2Proof/Proofs/EdgeRegisters.lean ====
section
/-! SUPPORT. What one edge leaves in the registers, whatever the host holds for later edges: reset, an accepted request,
rest, or one busy operation (spec/44_controller.md R117 to R125). -/

namespace Sys2Proof.Proofs
open Sys2Proof.Machine Sys2Proof.Laws

/-! ### A busy edge -/

/-- R32: the entry of the round-key store with a given number, 0 to 10. -/
def entry (i : Nat) : Fin 11 := Fin.ofNat 11 i

theorem entry_of_lt {i : Nat} (h : i < 11) : entry i = ⟨i, h⟩ := Fin.ext (Nat.mod_eq_of_lt h)

/-- R121 to R124: the registers after a busy edge with `rst = 0`, from the registers before it alone. -/
def busyEdge (e : Engine) : Engine :=
  match e.ph with
  | .keyexp =>
    let rk := e.rk.set (entry e.rnd.toNat) (nextRoundKey e.rk[entry (e.rnd.toNat - 1)] e.rc)
    if e.rnd = 10 then { e with ph := .init, rnd := 0, rk := rk }
    else { e with rnd := e.rnd + 1, rc := xtime e.rc, rk := rk }
  | .init => { e with ph := .round, rnd := 1, st := addRoundKey e.st e.rk[0] }
  | .round =>
    let st := roundFn e.st e.rk[entry e.rnd.toNat]
    if e.rnd = 9 then { e with ph := .final, rnd := 10, st := st }
    else { e with rnd := e.rnd + 1, st := st }
  | .final => { e with ph := .done, rnd := 0, st := finalFn e.st e.rk[10] }
  | _ => e

/-- R16: a busy edge moves one place, whatever the data. -/
theorem busyEdge_position (e : Engine) : (busyEdge e).position = nextBusyPosition e.position := by
  obtain ⟨ph, rnd, rc, st, rk⟩ := e
  cases ph with
  | keyexp =>
    simp only [busyEdge, Engine.position, nextBusyPosition]
    split <;> rfl
  | round =>
    simp only [busyEdge, Engine.position, nextBusyPosition]
    split <;> rfl
  | _ => rfl

/-- A busy edge with `rst = 0` completes and leaves the registers `busyEdge`, whatever `start` is. -/
def LeavesBusyEdge (s : State) : Prop := ∃ t, step s = .next t ∧ t.toEngine = busyEdge s.toEngine

section
variable {s : State} (hrst : s.sample.rst = false)
include hrst

theorem keyexp_leavesBusyEdge (hph : s.ph = .keyexp) (h1 : 1 ≤ s.rnd.toNat)
    (h10 : s.rnd.toNat ≤ 10) : LeavesBusyEdge s := by
  have hstep := step_keyexp hrst hph h1 h10
  rcases Nat.lt_or_eq_of_le h10 with below | last
  · have not_last : s.rnd ≠ 10 := fun hten => by simp [hten] at below
    have written : entry s.rnd.toNat = ⟨s.rnd.toNat, by omega⟩ := entry_of_lt _
    have previous : entry (s.rnd.toNat - 1) = ⟨s.rnd.toNat - 1, by omega⟩ := entry_of_lt _
    rw [execKexp_below_ten _ s h1 (Nat.le_of_lt_succ below)] at hstep
    refine ⟨_, hstep, ?_⟩
    simp only [busyEdge, hph, if_neg not_last, written, previous]
    rw [← hph]
    rfl
  · have hten : s.rnd = 10 := BitVec.eq_of_toNat_eq last
    rw [hten, execKexp_ten] at hstep
    refine ⟨_, hstep, ?_⟩
    simp only [busyEdge, hph, hten]
    rfl

theorem init_leavesBusyEdge (hph : s.ph = .init) (hrnd : s.rnd = 0) : LeavesBusyEdge s := by
  have hstep := step_init hrst hph hrnd
  rw [execInit_zero] at hstep
  refine ⟨_, hstep, ?_⟩
  simp only [busyEdge, hph]
  rfl

theorem round_leavesBusyEdge (hph : s.ph = .round) (h1 : 1 ≤ s.rnd.toNat)
    (h9 : s.rnd.toNat ≤ 9) : LeavesBusyEdge s := by
  have hstep := step_round hrst hph h1 h9
  rcases Nat.lt_or_eq_of_le h9 with below | last
  · have not_last : s.rnd ≠ 9 := fun hnine => by simp [hnine] at below
    have read : entry s.rnd.toNat = ⟨s.rnd.toNat, by omega⟩ := entry_of_lt _
    rw [execRound_below_nine _ s h1 (Nat.le_of_lt_succ below)] at hstep
    refine ⟨_, hstep, ?_⟩
    simp only [busyEdge, hph, if_neg not_last, read]
    rw [← hph]
    rfl
  · have hnine : s.rnd = 9 := BitVec.eq_of_toNat_eq last
    rw [hnine, execRound_nine] at hstep
    refine ⟨_, hstep, ?_⟩
    simp only [busyEdge, hph, hnine]
    rfl

theorem final_leavesBusyEdge (hph : s.ph = .final) (hrnd : s.rnd = 10) : LeavesBusyEdge s := by
  have hstep := step_final hrst hph hrnd
  rw [execFinal_ten] at hstep
  refine ⟨_, hstep, ?_⟩
  simp only [busyEdge, hph]
  rfl

theorem busy_leavesBusyEdge (hlegal : s.atLegalPosition = true) (hbusy : s.busy = true) :
    LeavesBusyEdge s := by
  rw [busy_eq_true_iff] at hbusy
  rcases legalPosition_cases hlegal with ⟨hph, -⟩ | ⟨hph, h1, h10⟩ | ⟨hph, hrnd⟩ | ⟨hph, h1, h9⟩ |
    ⟨hph, hrnd⟩ | ⟨hph, -⟩
  · simp [hph] at hbusy
  · exact keyexp_leavesBusyEdge hrst hph h1 h10
  · exact init_leavesBusyEdge hrst hph hrnd
  · exact round_leavesBusyEdge hrst hph h1 h9
  · exact final_leavesBusyEdge hrst hph hrnd
  · simp [hph] at hbusy

end

/-! ### Any edge -/

/-- R155: an edge with `rst = 1` is RESET, at every position. -/
theorem step_reset {s : State} (hrst : s.sample.rst = true) : step s = .next s.zeroise.nextEdge := by
  have hd : decode s.cw = .ok (.reset s.sample.start s.ph s.rnd) := (decode_cw s).trans (if_pos hrst)
  rw [step_of_decode hd, exec_reset, afterEdge]

/-- R117: the edge of `s` leaves the registers `e`, by one of the four kinds of edge. -/
inductive EdgeLeaves (s : State) : Engine → Prop
  | reset (hrst : s.sample.rst = true) : EdgeLeaves s Engine.reset
  | accept (haccept : s.acceptsRequest = true) : EdgeLeaves s s.acceptRequest.toEngine
  | rest (hrst : s.sample.rst = false) (hstart : s.sample.start = false)
      (hrest : s.ph = .idle ∨ s.ph = .done) (hrnd : s.rnd = 0) : EdgeLeaves s s.toEngine
  | busy (hrst : s.sample.rst = false) (hlegal : s.atLegalPosition = true) (hbusy : s.busy = true) :
      EdgeLeaves s (busyEdge s.toEngine)

theorem EdgeLeaves.exists_step {s : State} {e : Engine} (h : EdgeLeaves s e) :
    ∃ t, step s = .next t ∧ t.toEngine = e := by
  cases h with
  | reset hrst => exact ⟨_, step_reset hrst, rfl⟩
  | accept haccept => exact ⟨_, step_accept haccept, rfl⟩
  | rest hrst hstart hrest hrnd => exact ⟨_, step_resting hrnd hrst hrest hstart, rfl⟩
  | busy hrst hlegal hbusy => exact busy_leavesBusyEdge hrst hlegal hbusy

/-- R54: with `rst = 0` only a legal position has a step. -/
theorem legal_of_step {s t : State} (hrst : s.sample.rst = false) (h : step s = .next t) :
    s.atLegalPosition = true := by
  obtain ⟨i, -, hdecode, -, -⟩ := step_next h
  rw [decode_cw, hrst] at hdecode
  cases hph : s.ph <;> simp_all [selectByPhase, Engine.atLegalPosition, legalPosition]

/-- R16: a legal position that is not busy is (IDLE, 0) or (DONE, 0). -/
theorem resting_of_legal_of_not_busy {e : Engine} (hlegal : e.atLegalPosition = true)
    (hidle : ¬ e.busy = true) : (e.ph = .idle ∨ e.ph = .done) ∧ e.rnd = 0 := by
  simp only [busy_eq_true_iff, not_or] at hidle
  obtain ⟨not_keyexp, not_init, not_round, not_final⟩ := hidle
  rcases legalPosition_cases hlegal with ⟨hph, hrnd⟩ | ⟨hph, -⟩ | ⟨hph, -⟩ | ⟨hph, -⟩ | ⟨hph, -⟩ |
    ⟨hph, hrnd⟩
  · exact ⟨.inl hph, hrnd⟩
  · exact absurd hph not_keyexp
  · exact absurd hph not_init
  · exact absurd hph not_round
  · exact absurd hph not_final
  · exact ⟨.inr hph, hrnd⟩

/-- R117: at a legal position every edge with `rst = 0` is of one of the three other kinds. -/
theorem exists_edgeLeaves_of_legal {s : State} (hrst : s.sample.rst = false)
    (hlegal : s.atLegalPosition = true) : ∃ e, EdgeLeaves s e := by
  by_cases hbusy : s.busy = true
  · exact ⟨_, .busy hrst hlegal hbusy⟩
  · obtain ⟨hph, hrnd⟩ := resting_of_legal_of_not_busy hlegal hbusy
    cases hstart : s.sample.start with
    | false => exact ⟨_, .rest hrst hstart hph hrnd⟩
    | true => exact ⟨_, .accept (by simp [State.acceptsRequest, Engine.resting, hrst, hstart, hph, hrnd])⟩

/-- R117: every step that answers a next state is of one of the four kinds. -/
theorem edgeLeaves_of_step {s t : State} (h : step s = .next t) : EdgeLeaves s t.toEngine := by
  have kind : ∃ e, EdgeLeaves s e := by
    cases hrst : s.sample.rst with
    | true => exact ⟨_, .reset hrst⟩
    | false => exact exists_edgeLeaves_of_legal hrst (legal_of_step hrst h)
  obtain ⟨e, he⟩ := kind
  obtain ⟨u, hstep, rfl⟩ := he.exists_step
  cases h.symm.trans hstep
  exact he

end Sys2Proof.Proofs
end

