-- ==== Sys2Proof/Proofs/Hazards.lean ====
section
/-! SUPPORT. Reset, and what the ports and the data cannot reach: two edges, then two runs, side by side
(spec/70_reset_and_hazards.md R155 to R167). -/

namespace Sys2Proof.Proofs
open Sys2Proof.Machine Sys2Proof.Laws

/-! ### Reset -/

/-- R155: one edge with `rst = 1` is enough, and more of them repeat it. -/
theorem runSteps_reset {n : Nat} {s : State} (hrst : ∀ k, k ≤ n → (s.sampleAt k).rst = true) :
    ∃ t, runSteps (n + 1) s = .next t ∧ t.toEngine = Engine.reset := by
  induction n with
  | zero => exact ⟨_, runSteps_succ 0 (step_reset (hrst 0 (Nat.le_refl 0))), rfl⟩
  | succ n ih =>
    obtain ⟨t, hrun, -⟩ := ih fun k hk => hrst k (Nat.le_succ_of_le hk)
    have hlast : t.sample.rst = true := by
      rw [State.sample, runSteps_sampleAt hrun]
      exact hrst (n + 1) (Nat.le_refl _)
    exact ⟨_, runSteps_snoc hrun (step_reset hlast), rfl⟩

/-- Settles O45: the registers are those of `Engine.reset`, and the outputs are functions of them. -/
theorem resetEdgeReachesTheResetState : Obligations.ResetEdgeReachesTheResetState := by
  intro n s hrst
  obtain ⟨t, hrun, hregs⟩ := runSteps_reset hrst
  refine ⟨t, hrun, ?_⟩
  rw [hregs]
  exact ⟨rfl, rfl, rfl, rfl, fun j => Vector.getElem_replicate j.isLt, rfl, rfl, rfl⟩

/-! ### Two edges side by side -/

section
variable {s s' : State} {e : Engine}

/-- R164: from equal registers in a busy phase the ports other than `rst` make no difference. -/
theorem EdgeLeaves.of_busy (h : EdgeLeaves s e) (hregs : s.toEngine = s'.toEngine)
    (hbusy : s.busy = true) (hrst : s.sample.rst = s'.sample.rst) : EdgeLeaves s' e := by
  cases h with
  | reset hreset => exact .reset (hrst ▸ hreset)
  | accept haccept =>
    rw [busy_eq_true_iff] at hbusy
    rcases hbusy with hph | hph | hph | hph <;>
      simp [State.acceptsRequest, Engine.resting, hph] at haccept
  | rest _ _ hrest _ => rcases hrest with hph | hph <;> simp [Engine.busy, hph] at hbusy
  | busy hquiet hlegal _ =>
    rw [hregs] at hlegal hbusy ⊢
    exact .busy (hrst ▸ hquiet) hlegal hbusy

/-- R120: the registers after LOAD. -/
theorem acceptRequest_toEngine (s : State) :
    s.acceptRequest.toEngine =
      { ph := .keyexp, rnd := 1, rc := Config.rconFirst, st := s.sampledBlock,
        rk := s.rk.set 0 s.sampledKey } := rfl

/-- R120: the registers after LOAD are a function of those before it, `key_in` and `block_in`. -/
theorem acceptRequest_congr (hregs : s.toEngine = s'.toEngine)
    (hkey : s.sample.keyIn = s'.sample.keyIn) (hblock : s.sample.blockIn = s'.sample.blockIn) :
    s.acceptRequest.toEngine = s'.acceptRequest.toEngine := by
  have sameKey : s.sampledKey = s'.sampledKey := congrArg unpack hkey
  have sameBlock : s.sampledBlock = s'.sampledBlock := congrArg unpack hblock
  rw [acceptRequest_toEngine, acceptRequest_toEngine, sameKey, sameBlock, hregs]

variable (hrst : s.sample.rst = s'.sample.rst) (hstart : s.sample.start = s'.sample.start)
include hrst hstart

/-- R161: whether a request is accepted is a function of the position, `rst` and `start`. -/
theorem acceptsRequest_congr (hpos : s.position = s'.position) :
    s.acceptsRequest = s'.acceptsRequest := by
  obtain ⟨hph, hrnd⟩ := Prod.mk.inj hpos
  simp only [State.acceptsRequest, Engine.resting, hrst, hstart, hph, hrnd]

/-- R166: the position after an edge is a function of the one before it, `rst` and `start`. -/
theorem EdgeLeaves.position_congr (h : EdgeLeaves s e) (hpos : s.position = s'.position) :
    ∃ e', EdgeLeaves s' e' ∧ e'.position = e.position := by
  obtain ⟨hph, hrnd⟩ := Prod.mk.inj hpos
  cases h with
  | reset hreset => exact ⟨_, .reset (hrst ▸ hreset), rfl⟩
  | accept haccept =>
    exact ⟨_, .accept (acceptsRequest_congr hrst hstart hpos ▸ haccept), by simp [Engine.position]⟩
  | rest hquiet hidle hrest hzero =>
    exact ⟨_, .rest (hrst ▸ hquiet) (hstart ▸ hidle) (hph ▸ hrest) (hrnd ▸ hzero), hpos.symm⟩
  | busy hquiet hlegal hbusy =>
    have hlegal' : s'.atLegalPosition = true := by
      rwa [Engine.atLegalPosition, ← hph, ← hrnd]
    have hbusy' : s'.busy = true := by rwa [Engine.busy, ← hph]
    exact ⟨_, .busy (hrst ▸ hquiet) hlegal' hbusy', by rw [busyEdge_position, busyEdge_position, hpos]⟩

/-- R159: from equal registers, with equal `rst` and `start`, the data ports make a difference at an accepted request
only. -/
theorem EdgeLeaves.of_equal_registers (h : EdgeLeaves s e) (hregs : s.toEngine = s'.toEngine)
    (hdata : s.acceptsRequest = true →
      s.sample.keyIn = s'.sample.keyIn ∧ s.sample.blockIn = s'.sample.blockIn) :
    EdgeLeaves s' e := by
  have hpos : s.position = s'.position := congrArg Engine.position hregs
  cases h with
  | reset hreset => exact .reset (hrst ▸ hreset)
  | accept haccept =>
    obtain ⟨hkey, hblock⟩ := hdata haccept
    rw [acceptRequest_congr hregs hkey hblock]
    exact .accept (acceptsRequest_congr hrst hstart hpos ▸ haccept)
  | rest hquiet hidle hrest hzero =>
    rw [hregs] at hrest hzero ⊢
    exact .rest (hrst ▸ hquiet) (hstart ▸ hidle) hrest hzero
  | busy hquiet hlegal hbusy =>
    rw [hregs] at hlegal hbusy ⊢
    exact .busy (hrst ▸ hquiet) hlegal hbusy

end

/-- Settles O48: the edge of the one state is an edge of the other (`EdgeLeaves.of_busy`). -/
theorem requestsWhileBusyAreIgnored : Obligations.RequestsWhileBusyAreIgnored :=
  fun _ _ _ hregs hbusy hrst hstep => ((edgeLeaves_of_step hstep).of_busy hregs hbusy hrst).exists_step

/-! ### Two runs side by side -/

/-- R166: positions along a run are functions of the first one and of `rst` and `start`. -/
theorem runSteps_position_congr {n : Nat} {s s' t : State} (hpos : s.position = s'.position)
    (hports : ∀ k, k < n → (s.sampleAt k).rst = (s'.sampleAt k).rst ∧
      (s.sampleAt k).start = (s'.sampleAt k).start)
    (hrun : runSteps n s = .next t) : ∃ t', runSteps n s' = .next t' ∧ t'.position = t.position := by
  induction n generalizing s s' with
  | zero =>
    cases hrun
    exact ⟨s', rfl, hpos.symm⟩
  | succ n ih =>
    obtain ⟨u, hstep, hrest⟩ := runSteps_succ_next hrun
    obtain ⟨hrst, hstart⟩ := hports 0 n.succ_pos
    obtain ⟨_, hedge, hnext⟩ := (edgeLeaves_of_step hstep).position_congr hrst hstart hpos
    obtain ⟨u', hstep', rfl⟩ := hedge.exists_step
    obtain ⟨t', hrun', hend⟩ := ih hnext.symm (fun k hk => by
      rw [step_sampleAt hstep, step_sampleAt hstep']
      exact hports (k + 1) (Nat.succ_lt_succ hk)) hrest
    exact ⟨t', (runSteps_succ n hstep').trans hrun', hend⟩

/-- Settles O52: the positions agree (`runSteps_position_congr`), and `done` and `busy` are functions of the phase. -/
theorem controlIsDataIndependent : Obligations.ControlIsDataIndependent := by
  intro n s s' t hpos hports hrun
  obtain ⟨t', hrun', hend⟩ := runSteps_position_congr hpos hports hrun
  obtain ⟨hph, -⟩ := Prod.mk.inj hend
  exact ⟨t', hrun', hend, by rw [Engine.done, hph, Engine.done], by rw [Engine.busy, hph, Engine.busy]⟩

/-- Settles O53: by induction on the run, one edge at a time (`EdgeLeaves.of_equal_registers`). -/
theorem dataPortsMatterOnlyAtLoad : Obligations.DataPortsMatterOnlyAtLoad := by
  intro n
  induction n with
  | zero =>
    intro s s' t hregs _ _ hrun
    cases hrun
    exact ⟨s', rfl, hregs.symm⟩
  | succ n ih =>
    intro s s' t hregs hports hdata hrun
    obtain ⟨u, hstep, hrest⟩ := runSteps_succ_next hrun
    obtain ⟨hrst, hstart⟩ := hports 0 n.succ_pos
    obtain ⟨u', hstep', hnext⟩ := ((edgeLeaves_of_step hstep).of_equal_registers hrst hstart hregs
      (hdata 0 s n.succ_pos rfl)).exists_step
    have hsample : ∀ k, u.sampleAt k = s.sampleAt (k + 1) := step_sampleAt hstep
    have hsample' : ∀ k, u'.sampleAt k = s'.sampleAt (k + 1) := step_sampleAt hstep'
    obtain ⟨t', hrun', hend⟩ := ih u u' t hnext.symm
      (fun k hk => by
        rw [hsample, hsample']
        exact hports (k + 1) (Nat.succ_lt_succ hk))
      (fun k v hk hv haccept => by
        rw [hsample, hsample']
        exact hdata (k + 1) v (Nat.succ_lt_succ hk) ((runSteps_succ k hstep).trans hv) haccept)
      hrest
    exact ⟨t', (runSteps_succ n hstep').trans hrun', hend⟩

/-! ### Termination -/

/-- R127: the places of the schedule are legal positions. -/
theorem scheduledPosition_legal {n : Nat} (h : n < 21) {e : Engine}
    (he : e.position = scheduledPosition n) : e.atLegalPosition = true := by
  obtain ⟨hph, hrnd⟩ := Prod.mk.inj he
  rw [Engine.atLegalPosition, hph, hrnd]
  interval_cases n <;> rfl

/-- R16, R127: every busy position is one of the first 21 places of the schedule. -/
theorem exists_scheduledPosition {e : Engine} (hlegal : e.atLegalPosition = true)
    (hbusy : e.busy = true) : ∃ n, n < 21 ∧ e.position = scheduledPosition n := by
  rw [busy_eq_true_iff] at hbusy
  rcases legalPosition_cases hlegal with ⟨hph, -⟩ | ⟨hph, h1, h10⟩ | ⟨hph, hrnd⟩ | ⟨hph, h1, h9⟩ |
    ⟨hph, hrnd⟩ | ⟨hph, -⟩
  · simp [hph] at hbusy
  · refine ⟨e.rnd.toNat - 1, by omega, ?_⟩
    have place : e.rnd.toNat - 1 ≤ 9 := by omega
    simp [Engine.position, scheduledPosition, hph, place, Nat.sub_add_cancel h1]
  · exact ⟨10, by omega, by rw [Engine.position, hph, hrnd]; rfl⟩
  · refine ⟨e.rnd.toNat + 10, by omega, ?_⟩
    have past_init : ¬ e.rnd.toNat + 10 ≤ 9 ∧ e.rnd.toNat + 10 ≠ 10 := by omega
    have place : e.rnd.toNat + 10 ≤ 19 := by omega
    rw [Engine.position, scheduledPosition, if_neg past_init.1, if_neg past_init.2, if_pos place, hph,
      Nat.add_sub_cancel, BitVec.ofNat_toNat, BitVec.setWidth_eq]
  · exact ⟨20, by omega, by rw [Engine.position, hph, hrnd]; rfl⟩
  · simp [hph] at hbusy

/-- R127: an edge with `rst = 0` at a busy place of the schedule moves to the next place, whatever the registers hold. -/
theorem step_scheduledPosition {n : Nat} (hn : n < 21) {s : State}
    (hpos : s.position = scheduledPosition n) (hrst : s.sample.rst = false) :
    ∃ t, step s = .next t ∧ t.position = scheduledPosition (n + 1) := by
  obtain ⟨t, hstep, hregs⟩ :=
    busy_leavesBusyEdge hrst (scheduledPosition_legal hn hpos) (scheduledPosition_busy hn hpos)
  exact ⟨t, hstep, by rw [hregs, busyEdge_position, hpos, scheduledPosition_succ hn]⟩

/-- R167: `m` edges with `rst = 0` lead from `m` places before DONE to DONE. -/
theorem runSteps_to_done {m : Nat} (hm : m ≤ 21) {s : State} (hpos : s.position = scheduledPosition (21 - m))
    (hquiet : ∀ k, k < m → (s.sampleAt k).rst = false) :
    ∃ t, runSteps m s = .next t ∧ t.position = (.done, 0) := by
  induction m generalizing s with
  | zero => exact ⟨s, rfl, hpos⟩
  | succ m ih =>
    obtain ⟨u, hstep, hnext⟩ := step_scheduledPosition (by omega) hpos (hquiet 0 m.succ_pos)
    have next_place : 21 - (m + 1) + 1 = 21 - m := by omega
    obtain ⟨t, hrun, hend⟩ := ih (by omega) (next_place ▸ hnext) fun k hk => by
      rw [step_sampleAt hstep]
      exact hquiet (k + 1) (Nat.succ_lt_succ hk)
    exact ⟨t, (runSteps_succ m hstep).trans hrun, hend⟩

/-- Settles O54: a busy position is place `n` of the schedule, `21 - n` edges before DONE; reset is `step_reset`. -/
theorem busyEngineReachesDone : Obligations.BusyEngineReachesDone := by
  intro s hlegal hbusy
  refine ⟨fun hquiet => ?_, fun hrst => ⟨_, step_reset hrst, rfl⟩⟩
  obtain ⟨n, hn, hpos⟩ := exists_scheduledPosition hlegal hbusy
  have place : 21 - (21 - n) = n := by omega
  obtain ⟨t, hrun, hend⟩ := runSteps_to_done (m := 21 - n) (by omega) (place.symm ▸ hpos)
    fun k hk => hquiet k k.zero_le (by omega)
  exact ⟨21 - n, t, by omega, hrun, congrArg Prod.fst hend⟩

end Sys2Proof.Proofs
end

