-- ==== Sys2Proof/Proofs/ControlWord.lean ====
section
/-! SUPPORT. The operation map in its two directions (spec/30_encoding.md R50 to R54), and what the step makes of the operation
or of the refusal it selects (spec/44_controller.md R117). -/

namespace Sys2Proof.Proofs
open Sys2Proof.Machine Sys2Proof.Laws

/-! ### The map, row by row -/

/-- R54: without reset the phase selects (R52, "In prose"). -/
theorem decode_no_reset (start : Bool) (ph : Phase) (rnd : RoundIndex) :
    decode (controlWord false start ph rnd) = selectByPhase start ph rnd :=
  (decode_controlWord false start ph rnd).trans (if_neg Bool.false_ne_true)

/-- R52: a round index inside its row's range admits the operation. -/
theorem admitIf_of_legal {legal : Bool} {i : Instr} (h : legal = true) : admitIf legal i = .ok i := if_pos h

/-- Settles O1: the word of each operation selects its row, whose range is what well-formedness asks. -/
theorem decodeAfterEncodeReturnsTheOperation : Obligations.DecodeAfterEncodeReturnsTheOperation := by
  intro i hwf
  cases i with
  | reset start ph rnd => exact decode_reset start ph rnd
  | _ => exact (decode_no_reset _ _ _).trans (admitIf_of_legal hwf)

/-- R52: what the phase selects is well formed, and is encoded by the word with `rst = 0` and these fields. -/
theorem selectByPhase_ok {start : Bool} {ph : Phase} {rnd : RoundIndex} {i : Instr}
    (h : selectByPhase start ph rnd = .ok i) :
    i.wellFormed = true ∧ encode i = controlWord false start ph rnd := by
  cases ph with
  | reserved6 => cases h
  | reserved7 => cases h
  | idle =>
    obtain ⟨hlegal, rfl⟩ := admitIf_ok.mp h
    cases start <;> exact ⟨hlegal, rfl⟩
  | done =>
    obtain ⟨hlegal, rfl⟩ := admitIf_ok.mp h
    cases start <;> exact ⟨hlegal, rfl⟩
  | _ =>
    obtain ⟨hlegal, rfl⟩ := admitIf_ok.mp h
    exact ⟨hlegal, rfl⟩

/-- Settles O2: a word is formed from its own fields; with `rst = 1` it is RESET, otherwise `selectByPhase_ok`. -/
theorem acceptedWordsEncodeBack : Obligations.AcceptedWordsEncodeBack := by
  intro w i hdecode
  rw [← controlWord_fields w] at hdecode ⊢
  cases hrst : cwRst w with
  | true =>
    rw [hrst, decode_reset] at hdecode
    cases hdecode
    exact ⟨rfl, rfl⟩
  | false =>
    rw [hrst, decode_no_reset] at hdecode
    exact selectByPhase_ok hdecode

/-- R54: at each of the 23 positions one operation is selected, at every other position none. -/
theorem exists_selectByPhase_ok_iff (start : Bool) (ph : Phase) (rnd : RoundIndex) :
    (∃ i, selectByPhase start ph rnd = .ok i) ↔ legalPosition ph rnd = true := by
  cases ph <;> simp [selectByPhase, legalPosition]

/-- R52: no word is selected by two rows. -/
theorem opRows_disjoint : ∀ w : ControlWord, ∀ a ∈ opRows, ∀ b ∈ opRows,
    rowSelects w a = true → rowSelects w b = true → a = b := by
  decide +kernel

/-- Settles O3: the masks are compared word by word; without reset the phase selects. -/
theorem rowsAreDisjointAndReservedWordsSelectNothing :
    Obligations.RowsAreDisjointAndReservedWordsSelectNothing :=
  ⟨opRows_disjoint,
    fun start ph rnd => by rw [decode_no_reset, exists_selectByPhase_ok_iff],
    decode_reset⟩

/-- Settles O4: the table is searched for each of the fourteen words. -/
theorem traceWordsDecodeAsPrinted : Obligations.TraceWordsDecodeAsPrinted :=
  ⟨rfl, rfl, rfl, rfl, rfl, rfl, rfl, rfl, rfl, rfl, rfl, rfl, rfl, rfl⟩

/-! ### What the step answers -/

/-- Settles O5: the step is the selected operation with the edge passed (`step_of_decode`). -/
theorem stepPerformsTheSelectedOperation : Obligations.StepPerformsTheSelectedOperation := by
  intro s i hdecode
  have hstep : step s = afterEdge (exec i s) := step_of_decode hdecode
  refine ⟨fun t hexec => ⟨t.nextEdge, ?_, rfl, rfl, rfl⟩, fun f hexec => ?_, fun r hexec => ?_⟩ <;>
    rw [hstep, hexec, afterEdge]

/-- R54: without reset a phase whose row excludes the round index selects nothing. -/
theorem selectByPhase_of_illegal {start : Bool} {ph : Phase} {rnd : RoundIndex} (h6 : ph ≠ .reserved6)
    (h7 : ph ≠ .reserved7) (h : legalPosition ph rnd = false) :
    selectByPhase start ph rnd = .error .roundOutOfRange := by
  cases ph with
  | reserved6 => exact absurd rfl h6
  | reserved7 => exact absurd rfl h7
  | _ => exact admitIf_error.mpr ⟨h, rfl⟩

/-- R54: a code that is no phase selects nothing. -/
theorem selectByPhase_of_reserved {start : Bool} {ph : Phase} {rnd : RoundIndex}
    (h : ph = .reserved6 ∨ ph = .reserved7) : selectByPhase start ph rnd = .error .reservedPhase := by
  rcases h with rfl | rfl <;> rfl

/-- Settles O6: the word of the edge selects nothing, and the step passes the decoder's reason on. -/
theorem stepRefusesIllegalPositions : Obligations.StepRefusesIllegalPositions := by
  intro s hrst
  have hcw : decode s.cw = selectByPhase s.sample.start s.ph s.rnd := by
    rw [State.cw, hrst, decode_no_reset]
  exact ⟨fun hph => step_of_reject (hcw.trans (selectByPhase_of_reserved hph)),
    fun h6 h7 hillegal => step_of_reject (hcw.trans (selectByPhase_of_illegal h6 h7 hillegal))⟩

/-! ### What an operation answers -/

/-- R52, log entry 2: the row whose round index must be 0 refuses any other. -/
theorem whenRoundZero_of_ne {rnd : RoundIndex} (h : (rnd == 0) = false) (t : State) :
    whenRoundZero rnd t = .refused .roundOutOfRange := if_neg (by simpa using h)

/-- Settles O7: each range check of the operations is that of `Instr.wellFormed`. -/
theorem illFormedOperationsAreRefused : Obligations.IllFormedOperationsAreRefused := by
  intro i s hill
  cases i with
  | reset start ph rnd => cases hill
  | idle rnd => exact whenRoundZero_of_ne hill _
  | loadIdle rnd => exact whenRoundZero_of_ne hill _
  | loadDone rnd => exact whenRoundZero_of_ne hill _
  | hold rnd => exact whenRoundZero_of_ne hill _
  | kexp start rnd =>
    have outside : kexpEntries rnd = none := dif_neg (by simpa [Instr.wellFormed] using hill)
    simp only [exec, execKexp, outside]
  | init start rnd =>
    have outside : initEntry rnd = none := if_neg (by simpa [Instr.wellFormed] using hill)
    simp only [exec, execInit, outside]
  | round start rnd =>
    have outside : roundEntry rnd = none := dif_neg (by simpa [Instr.wellFormed] using hill)
    simp only [exec, execRound, outside]
  | final start rnd =>
    have outside : finalEntry rnd = none := if_neg (by simpa [Instr.wellFormed] using hill)
    simp only [exec, execFinal, outside]

/-- R142: no operation faults. -/
theorem exec_ne_fault (i : Instr) (s : State) (f : Fault) : exec i s ≠ .fault f := by
  cases i with
  | reset start ph rnd => simp [exec_reset]
  | idle rnd => exact whenRoundZero_ne_fault
  | loadIdle rnd => exact whenRoundZero_ne_fault
  | loadDone rnd => exact whenRoundZero_ne_fault
  | hold rnd => exact whenRoundZero_ne_fault
  | kexp start rnd =>
    simp only [exec, execKexp]
    split
    · simp
    · split <;> simp
  | init start rnd =>
    simp only [exec, execInit]
    split <;> simp
  | round start rnd =>
    simp only [exec, execRound]
    split
    · simp
    · split <;> simp
  | final start rnd =>
    simp only [exec, execFinal]
    split <;> simp

/-- What the edge adds around an operation makes no fault. -/
theorem afterEdge_eq_fault {o : Host.Outcome State Fault Refusal} {f : Fault} :
    afterEdge o = .fault f ↔ o = .fault f := by
  cases o <;> simp [afterEdge]

/-- Settles O8: a step is a refusal or an operation with the edge passed, and no operation faults. -/
theorem engineNeverFaults : Obligations.EngineNeverFaults := by
  intro s f hstep
  cases hdecode : decode s.cw with
  | error e =>
    rw [step_of_reject hdecode] at hstep
    cases hstep
  | ok i =>
    rw [step_of_decode hdecode, afterEdge_eq_fault] at hstep
    exact exec_ne_fault i s f hstep

end Sys2Proof.Proofs
end

