-- ==== Sys2Proof/Proofs/Invariant.lean ====
section
/-! SUPPORT. What every edge keeps: the legal positions (spec/10_state.md R15, R16), the invariant of the registers (R24) and,
while the engine is busy, the key (R12). Each follows the four kinds of edge of `EdgeLeaves`. -/

namespace Sys2Proof.Proofs
open Sys2Proof.Machine Sys2Proof.Laws

/-! ### Positions -/

/-- R126: the two phases in which `start` is honoured. -/
theorem resting_eq_true_iff {e : Engine} : e.resting = true ↔ e.ph = .idle ∨ e.ph = .done := by
  simp [Engine.resting]

section
variable {e : Engine} (hlegal : e.atLegalPosition = true)
include hlegal

/-- R15: at rest the round counter is 0. -/
theorem rnd_eq_zero_of_resting (hrest : e.resting = true) : e.rnd = 0 := by
  rcases resting_eq_true_iff.mp hrest with hph | hph <;>
    simpa [Engine.atLegalPosition, legalPosition, hph] using hlegal

/-- R16: a legal position that is not at rest is busy. -/
theorem busy_of_not_resting (hrest : e.resting = false) : e.busy = true := by
  by_contra hbusy
  obtain ⟨hph, -⟩ := resting_of_legal_of_not_busy hlegal hbusy
  simp [resting_eq_true_iff.mpr hph] at hrest

end

/-- R120: at rest a request with `rst = 0` is accepted. -/
theorem acceptsRequest_of_resting {s : State} (hlegal : s.atLegalPosition = true)
    (hrest : s.resting = true) (hrst : s.sample.rst = false) (hstart : s.sample.start = true) :
    s.acceptsRequest = true := by
  simp [State.acceptsRequest, hrest, hrst, hstart, rnd_eq_zero_of_resting hlegal hrest]

/-- R16: the place after a legal one is legal. -/
theorem nextBusyPosition_legal (ph : Phase) : ∀ rnd : RoundIndex, legalPosition ph rnd = true →
    legalPosition (nextBusyPosition (ph, rnd)).1 (nextBusyPosition (ph, rnd)).2 = true := by
  cases ph <;> decide

/-- R117: every edge leaves a legal position. -/
theorem EdgeLeaves.legal {s : State} {e : Engine} (h : EdgeLeaves s e) : e.atLegalPosition = true := by
  cases h with
  | reset _ => rfl
  | accept _ => rfl
  | rest _ _ hrest hrnd =>
    rcases hrest with hph | hph <;> simp [Engine.atLegalPosition, legalPosition, hph, hrnd]
  | busy _ hlegal _ =>
    obtain ⟨hph, hrnd⟩ := Prod.mk.inj (busyEdge_position s.toEngine)
    rw [Engine.atLegalPosition, hph, hrnd]
    exact nextBusyPosition_legal s.ph s.rnd hlegal

/-- Settles O9: with `rst = 1` the step is RESET; without it `exists_edgeLeaves_of_legal`. -/
theorem everyLegalPositionHasAStep : Obligations.EveryLegalPositionHasAStep := by
  intro s hlegal
  have kind : ∃ e, EdgeLeaves s e := by
    cases hrst : s.sample.rst with
    | true => exact ⟨_, .reset hrst⟩
    | false => exact exists_edgeLeaves_of_legal hrst hlegal
  obtain ⟨e, he⟩ := kind
  obtain ⟨t, hstep, rfl⟩ := he.exists_step
  exact ⟨t, hstep, he.legal⟩

/-- R16: the positions on the list are the legal ones. -/
theorem mem_positionOrder (ph : Phase) :
    ∀ rnd : RoundIndex, (ph, rnd) ∈ positionOrder ↔ legalPosition ph rnd = true := by
  cases ph <;> decide

/-- R16, R127: after (IDLE, 0) the list is the schedule of an encryption. -/
theorem positionOrder_succ {n : Nat} (h : n ≤ 21) :
    positionOrder[n + 1]? = some (scheduledPosition n) := by
  interval_cases n <;> rfl

/-- Settles O14: a step answers one state only, which in each of the four cases is known. -/
theorem positionsAdvanceOnePlace : Obligations.PositionsAdvanceOnePlace := by
  refine ⟨rfl, by decide, mem_positionOrder, fun s hlegal => ?_⟩
  obtain ⟨t, hstep, -⟩ := everyLegalPositionHasAStep s hlegal
  refine ⟨t, hstep, fun hrst => ?_, fun hrst hrest hstart => ?_, fun hrst hrest hstart => ?_,
    fun hrst hrest => ?_⟩
  · cases hstep.symm.trans (step_reset hrst)
    rfl
  · cases hstep.symm.trans (step_resting (rnd_eq_zero_of_resting hlegal hrest) hrst
      (resting_eq_true_iff.mp hrest) hstart)
    rfl
  · cases hstep.symm.trans (step_accept (acceptsRequest_of_resting hlegal hrest hrst hstart))
    rfl
  · obtain ⟨n, hn, hpos⟩ := exists_scheduledPosition hlegal (busy_of_not_resting hlegal hrest)
    obtain ⟨u, hstep', hnext⟩ := step_scheduledPosition hn hpos hrst
    cases hstep.symm.trans hstep'
    exact ⟨n + 1, hpos ▸ positionOrder_succ (Nat.le_of_lt hn), hnext ▸ positionOrder_succ hn⟩

/-! ### The invariant of the registers -/

/-- R24: (IDLE, 0) asks nothing of the other registers. -/
theorem tracks_of_idle {k p : Block} {e : Engine} (hph : e.ph = .idle) (hrnd : e.rnd = 0) :
    e.Tracks k p where
  legal := by simp [Engine.atLegalPosition, legalPosition, hph, hrnd]
  expanding := by simp [hph]
  expanded := by simp [hph]
  waiting := by simp [hph]
  inRounds := by simp [hph]
  finished := by simp [hph]

/-- Settles O10: the registers of `Engine.reset`, entry by entry and byte by byte. -/
theorem resetStateHoldsTheResetValues : Obligations.ResetStateHoldsTheResetValues := by
  refine ⟨rfl, rfl, rfl, byteAt_zero, fun j i => ?_, rfl, rfl, rfl, rfl⟩
  have zero : State.reset.rk[j] = Block.zero := Vector.getElem_replicate j.isLt
  rw [zero, byteAt_zero]

/-- Settles O11: the reset position is (IDLE, 0). -/
theorem resetStateMeetsTheScheduleInvariant : Obligations.ResetStateMeetsTheScheduleInvariant :=
  ⟨Block.zero, Block.zero, tracks_of_idle rfl rfl⟩

/-- R121 to R124: a step from a busy phase with `rst = 0` leaves the registers `busyEdge`. -/
theorem toEngine_of_busy_step {s t : State} (hbusy : s.busy = true) (hrst : s.sample.rst = false)
    (hstep : step s = .next t) : t.toEngine = busyEdge s.toEngine := by
  obtain ⟨u, hstep', hregs⟩ := busy_leavesBusyEdge hrst (legal_of_step hrst hstep) hbusy
  cases hstep.symm.trans hstep'
  exact hregs

/-- R24: an edge at which no request is accepted keeps the key and the block that the registers track. -/
theorem EdgeLeaves.tracks {k p : Block} {s : State} {e : Engine} (h : EdgeLeaves s e)
    (htracks : s.toEngine.Tracks k p) (hnone : s.acceptsRequest = false) : e.Tracks k p := by
  cases h with
  | reset _ => exact tracks_of_idle rfl rfl
  | accept haccept => simp [haccept] at hnone
  | rest _ _ _ _ => exact htracks
  | busy hrst _ hbusy =>
    obtain ⟨t, hstep, -, hkept⟩ := busy_advances htracks hrst hbusy
    exact toEngine_of_busy_step hbusy hrst hstep ▸ hkept

/-- Settles O13: LOAD establishes the invariant (`acceptRequest_tracks`), every other edge keeps it (`EdgeLeaves.tracks`). -/
theorem registersTrackTheLastRequest : Obligations.RegistersTrackTheLastRequest := by
  intro k p s t htracks hstep
  refine ⟨(edgeLeaves_of_step hstep).tracks htracks, fun haccept => ?_⟩
  cases hstep.symm.trans (step_accept haccept)
  exact acceptRequest_tracks s

/-- Settles O12: the key and block are those tracked before, or those just sampled (O13). -/
theorem everyStepKeepsTheScheduleInvariant : Obligations.EveryStepKeepsTheScheduleInvariant := by
  rintro s t ⟨k, p, htracks⟩ hstep
  obtain ⟨kept, taken⟩ := registersTrackTheLastRequest k p s t htracks hstep
  cases haccept : s.acceptsRequest with
  | false => exact ⟨k, p, kept haccept⟩
  | true => exact ⟨_, _, taken haccept⟩

/-! ### The key -/

/-- R12: no busy operation writes entry 0: KEXP writes the entry at its round index, which is at least 1. -/
theorem busyEdge_key {e : Engine} (hlegal : e.atLegalPosition = true) :
    (busyEdge e).rk[0] = e.rk[0] := by
  obtain ⟨ph, rnd, rc, st, rk⟩ := e
  cases ph with
  | keyexp =>
    simp only [Engine.atLegalPosition, legalPosition, Bool.and_eq_true, decide_eq_true_eq] at hlegal
    obtain ⟨h1, h10⟩ := hlegal
    have other : (entry rnd.toNat).val ≠ 0 := by
      rw [entry_of_lt (Nat.lt_succ_of_le h10)]
      exact Nat.ne_of_gt h1
    simp only [busyEdge]
    split <;> exact Vector.getElem_set_ne (entry _).isLt (by decide) other
  | round =>
    simp only [busyEdge]
    split <;> rfl
  | _ => rfl

/-- Settles O49: the step is a busy edge, which leaves entry 0 as it was. -/
theorem keyIsImmutableWhileBusy : Obligations.KeyIsImmutableWhileBusy := by
  intro s t hbusy hrst hstep
  rw [toEngine_of_busy_step hbusy hrst hstep]
  exact busyEdge_key (legal_of_step hrst hstep)

end Sys2Proof.Proofs
end

