-- ==== Sys2Proof/Proofs/FieldIdentities.lean ====
section
/-! SUPPORT. The identities of the field units (spec/41_gf_units.md R81, R82) and of the S-box (spec/40_sbox.md R72), and the
single-column unit as a matrix over the field (spec/42_round_transforms.md R87). -/

namespace Sys2Proof.Proofs
open Sys2Proof.Machine Sys2Proof.Laws

/-! ### The field units -/

/-- R82: `xtime` is linear, as each of its bits is an XOR of bits. -/
theorem xtime_xor (a b : Byte) : xtime (a ^^^ b) = xtime a ^^^ xtime b := by
  apply BitVec.eq_of_getLsbD_eq
  intro i _
  simp only [xtime_getLsbD, BitVec.getLsbD_xor, BitVec.shiftLeft_xor_distrib,
    Bool.and_xor_distrib_right, Bool.xor_assoc, Bool.xor_left_comm]

/-- R82. -/
theorem mul3_xor (a b : Byte) : mul3 (a ^^^ b) = mul3 a ^^^ mul3 b := by
  simp only [mul3, xtime_xor]
  ac_rfl

/-- R82: the coefficients 1, 2 and 3 sum to 0. -/
theorem mul1_xor_mul2_xor_mul3 (b : Byte) : mul1 b ^^^ mul2 b ^^^ mul3 b = 0x00 := by
  rw [BitVec.xor_assoc, mul2_xor_mul3]
  exact BitVec.xor_self

/-- R82: division by `x`: the byte rotated right, and the reduction undone where its bit 0 was 1. -/
def divideByX (r : Byte) : Byte := r.rotateRight 1 ^^^ (if r.getLsbD 0 then 0x0d else 0x00)

theorem xtime_divideByX : ∀ r : Byte, xtime (divideByX r) = r := by decide +kernel

theorem xtime_bijective : Function.Bijective xtime :=
  Finite.injective_iff_bijective.mp
    (Finite.injective_iff_surjective.mpr (Function.RightInverse.surjective xtime_divideByX))

/-- R81: the product by each coefficient of MixColumn is its unit. -/
theorem gmul_one (b : Byte) : gmul b 1#8 = mul1 b := by
  simp [gmul, gmulTerm, List.range_succ, xor8, xtimeIter, mul1]

theorem gmul_two (b : Byte) : gmul b 2#8 = mul2 b := by
  simp [gmul, gmulTerm, List.range_succ, xor8, xtimeIter, mul2]

theorem gmul_three (b : Byte) : gmul b 3#8 = mul3 b := by
  simp [gmul, gmulTerm, List.range_succ, xor8, xtimeIter, mul3, BitVec.xor_comm]

/-- Settles O21: linearity bit by bit, `xtime` inverted by `divideByX`; the chain of `xtime` from 0x01 is evaluated. -/
theorem fieldIdentitiesHold : Obligations.FieldIdentitiesHold :=
  ⟨fun a b => ⟨xtime_xor a b, mul3_xor a b⟩, fun b => ⟨mul2_xor_mul3 b, mul1_xor_mul2_xor_mul3 b⟩,
    xtime_bijective, xtime_divideByX, fun b => ⟨gmul_one b, gmul_two b, gmul_three b⟩, by decide⟩

/-! ### The S-box -/

/-- R72 (a): no entry occurs twice, and there are as many entries as bytes. -/
theorem subst_bijective : Function.Bijective subst := Finite.injective_iff_bijective.mp subst_injective

/-- Settles O23: the entries are distinct (`subst_injective`); the fixed points are looked for in the whole table. -/
theorem substIsABijectionWithoutFixedPoints : Obligations.SubstIsABijectionWithoutFixedPoints :=
  ⟨subst_bijective, by decide +kernel, by decide +kernel, by decide⟩

/-! ### The single-column unit -/

/-- R87: row `i` of the coefficient matrix, with its products by 1, 2 and 3. -/
theorem wordByte_mixColumn (c : Word) (i : Fin 4) :
    wordByte (mixColumn c) i =
      gmul (wordByte c 0) ((mixMatrix[i])[0]) ^^^ gmul (wordByte c 1) ((mixMatrix[i])[1]) ^^^
        gmul (wordByte c 2) ((mixMatrix[i])[2]) ^^^ gmul (wordByte c 3) ((mixMatrix[i])[3]) := by
  fin_cases i <;> simp [mixMatrix, mixColumn, wordByte, gmul_one, gmul_two, gmul_three]

/-- R87: the unit is linear, as its multipliers are. -/
theorem mixColumn_xorWord (a b : Word) :
    mixColumn (xorWord a b) = xorWord (mixColumn a) (mixColumn b) := by
  apply word_ext <;>
    simp only [mixColumn, xorWord, xor8, mul1, mul2, mul3_xor, xtime_xor] <;>
    ac_rfl

/-- Settles O26: the matrix row by row, its equations by definition, linearity by that of the multipliers. -/
theorem mixColumnMultipliesByTheMatrix : Obligations.MixColumnMultipliesByTheMatrix :=
  ⟨wordByte_mixColumn, fun _ _ _ _ => rfl, mixColumn_of_equal_bytes, by decide, by decide, by decide,
    by decide, mixColumn_xorWord, by decide⟩

end Sys2Proof.Proofs
end

