-- ==== Sys2Proof/Proofs/ByteTransforms.lean ====
section
/-! SUPPORT. The words of a round key (spec/20_memory.md R36), and SubBytes and ShiftRows in both views of the State
(spec/42_round_transforms.md R85, R86). -/

namespace Sys2Proof.Proofs
open Sys2Proof.Machine Sys2Proof.Laws

/-- R36: byte `b` of word `j` is byte `4j + b` of the block. -/
theorem wordByte_wordOf (k : Block) (j b : Fin 4) :
    wordByte (wordOf k j) b = byteAt k ⟨4 * j.val + b.val, by omega⟩ :=
  (wordByte_eq_matrixAt k b j).trans (congrArg (byteAt k) (Fin.ext (Nat.add_comm _ _)))

/-- Settles O18: the bytes of each word; that a block is its four words is the form in which it is held. -/
theorem wordsAreConsecutiveBytes : Obligations.WordsAreConsecutiveBytes :=
  ⟨wordByte_wordOf, fun _ => rfl⟩

/-! ### SubBytes -/

/-- R85. -/
@[simp] theorem byteAt_subBytes (s : Block) (i : Fin 16) :
    byteAt (subBytes s) i = subst (byteAt s i) := by
  fin_cases i <;> rfl

/-- R85: the substitution is the same at every place, so the bytes may be rearranged before or after it. -/
theorem subBytes_rearranged (s : Block) (source : Fin 16 → Fin 16) :
    subBytes (blockOfBytes fun i => byteAt s (source i)) =
      blockOfBytes fun i => byteAt (subBytes s) (source i) :=
  block_ext_bytes fun i => by simp only [byteAt_subBytes, byteAt_blockOfBytes]

/-- Settles O24: the matrix view names a byte of the serialised one; ShiftRows is a rearrangement; the examples are
evaluated. -/
theorem subBytesSubstitutesEveryByte : Obligations.SubBytesSubstitutesEveryByte :=
  ⟨byteAt_subBytes, fun s _ _ => byteAt_subBytes s _, by decide, by decide, subBytes_rearranged,
    fun _ => rfl, by decide⟩

/-! ### ShiftRows -/

/-- R86: row `r` is rotated left by `r`; the sum is taken modulo 4. -/
theorem matrixAt_shiftRows (s : Block) (r c : Fin 4) :
    matrixAt (shiftRows s) r c = matrixAt s r (c + r) := by
  fin_cases r <;> fin_cases c <;> rfl

/-- R86: `src[i] = (5·i) mod 16`. -/
theorem byteAt_shiftRows (s : Block) (i : Fin 16) :
    byteAt (shiftRows s) i = byteAt s ⟨(5 * i.val) % 16, by omega⟩ := by
  fin_cases i <;> rfl

/-- R86: a State whose rows are constant is kept. -/
theorem shiftRows_of_constant_rows {s : Block} (h : ∀ r c d : Fin 4, matrixAt s r c = matrixAt s r d) :
    shiftRows s = s :=
  block_ext_bytes fun i => by
    rw [← matrixAt_of_byte, matrixAt_shiftRows, h _ _ ⟨i.val / 4, by omega⟩, matrixAt_of_byte]

/-- R86: four rotations bring every row around. -/
theorem shiftRows_four_times (s : Block) : shiftRows (shiftRows (shiftRows (shiftRows s))) = s := rfl

/-- Settles O25: both views by rows; row 0 is rotated by 0; the examples are evaluated. -/
theorem shiftRowsRotatesRowsLeft : Obligations.ShiftRowsRotatesRowsLeft :=
  ⟨matrixAt_shiftRows, byteAt_shiftRows, fun _ => shiftRows_of_constant_rows, shiftRows_four_times,
    fun s c => by rw [matrixAt_shiftRows, add_zero], by decide, by decide⟩

end Sys2Proof.Proofs
end

