-- ==== Sys2Proof/Proofs/Bijections.lean ====
section
/-! SUPPORT. Every transformation of the State is a bijection (spec/42_round_transforms.md R92), hence the block's function is
injective in the plaintext (spec/44_controller.md R116). -/

namespace Sys2Proof.Proofs
open Sys2Proof.Machine Sys2Proof.Laws

/-! ### SubBytes -/

/-- R92: every byte has one preimage under the S-box, so every State has one under SubBytes. -/
theorem subBytes_bijective : Function.Bijective subBytes := by
  refine ⟨fun a b h => block_ext_bytes fun i => subst_bijective.injective ?_, fun b => ?_⟩
  · rw [← byteAt_subBytes, ← byteAt_subBytes, h]
  · refine ⟨blockOfBytes fun i => Function.surjInv subst_bijective.surjective (byteAt b i), ?_⟩
    refine block_ext_bytes fun i => ?_
    rw [byteAt_subBytes, byteAt_blockOfBytes, Function.surjInv_eq subst_bijective.surjective]

/-! ### ShiftRows and MixColumns -/

/-- A function whose fourth iterate is the identity is inverted by its third. -/
theorem bijective_of_four_times {α : Type} {f : α → α} (h : ∀ a, f (f (f (f a))) = a) :
    Function.Bijective f :=
  Function.bijective_iff_has_inverse.mpr ⟨fun a => f (f (f a)), h, h⟩

theorem shiftRows_bijective : Function.Bijective shiftRows := bijective_of_four_times shiftRows_four_times

/-- R80: field addition is commutative within a longer sum. -/
theorem xor_left_comm (a b c : Byte) : a ^^^ (b ^^^ c) = b ^^^ (a ^^^ c) := by
  rw [← BitVec.xor_assoc, BitVec.xor_comm a, BitVec.xor_assoc]

/-- R80: equal bytes cancel within a longer sum. -/
theorem xor_cancel_left (a b : Byte) : a ^^^ (a ^^^ b) = b := by
  rw [← BitVec.xor_assoc, BitVec.xor_self, BitVec.zero_xor]

/-- The sum of the four bytes of a column. -/
def columnSum (c : Word) : Byte := c.b0 ^^^ c.b1 ^^^ c.b2 ^^^ c.b3

/-- R87, with the multipliers gathered: what becomes of the byte `a` before the byte `b` in a column of the given sum. -/
def mixByte (sum a b : Byte) : Byte := xtime (a ^^^ b) ^^^ (a ^^^ sum)

theorem mixColumn_eq_mixByte (c : Word) :
    mixColumn c =
      ⟨mixByte (columnSum c) c.b0 c.b1, mixByte (columnSum c) c.b1 c.b2, mixByte (columnSum c) c.b2 c.b3,
        mixByte (columnSum c) c.b3 c.b0⟩ := by
  apply word_ext <;>
    simp only [mixColumn, mixByte, mul1, mul2, mul3, columnSum, xtime_xor, BitVec.xor_assoc,
      BitVec.xor_comm, xor_left_comm, xor_cancel_left]

/-- R87: each column of the coefficient matrix sums to 1, so the sum of the bytes is kept. -/
theorem columnSum_mixColumn (c : Word) : columnSum (mixColumn c) = columnSum c := by
  simp only [mixColumn_eq_mixByte, mixByte, columnSum, xtime_xor, BitVec.xor_assoc, BitVec.xor_comm,
    xor_left_comm, xor_cancel_left, BitVec.xor_self, BitVec.xor_zero]

/-- Of three bytes in a row the middle one cancels. -/
theorem mixByte_mixByte (sum a b c : Byte) :
    mixByte sum (mixByte sum a b) (mixByte sum b c) = xtime (xtime (a ^^^ c)) ^^^ a := by
  simp only [mixByte, xtime_xor, BitVec.xor_assoc, BitVec.xor_comm, xor_left_comm, xor_cancel_left]

/-- R87: the square of the coefficient matrix adds to each byte 4 times its sum with the byte two places away. -/
theorem mixColumn_mixColumn (c : Word) :
    mixColumn (mixColumn c) =
      ⟨xtime (xtime (c.b0 ^^^ c.b2)) ^^^ c.b0, xtime (xtime (c.b1 ^^^ c.b3)) ^^^ c.b1,
        xtime (xtime (c.b2 ^^^ c.b0)) ^^^ c.b2, xtime (xtime (c.b3 ^^^ c.b1)) ^^^ c.b3⟩ := by
  rw [mixColumn_eq_mixByte (mixColumn c), columnSum_mixColumn, mixColumn_eq_mixByte c]
  simp only [mixByte_mixByte]

/-- R92: the coefficient matrix has order 4, since its square keeps the sums of two bytes that it adds. -/
theorem mixColumn_four_times (c : Word) : mixColumn (mixColumn (mixColumn (mixColumn c))) = c := by
  have sum_kept (q a b : Byte) : q ^^^ a ^^^ (q ^^^ b) = a ^^^ b := by
    rw [BitVec.xor_comm q, BitVec.xor_assoc, xor_cancel_left]
  rw [mixColumn_mixColumn (mixColumn _), mixColumn_mixColumn c]
  simp only [BitVec.xor_comm c.b2 c.b0, BitVec.xor_comm c.b3 c.b1, sum_kept, xor_cancel_left]

/-- R92: each column has order 4, so the State has. -/
theorem mixColumns_bijective : Function.Bijective mixColumns :=
  bijective_of_four_times fun _ => block_ext (mixColumn_four_times _) (mixColumn_four_times _)
    (mixColumn_four_times _) (mixColumn_four_times _)

/-! ### AddRoundKey and the round functions -/

/-- R92: the same key added twice cancels. -/
theorem addRoundKey_bijective (k : Block) : Function.Bijective fun s => addRoundKey s k :=
  Function.Involutive.bijective fun s => addRoundKey_cancel s k

theorem finalFn_bijective (k : Block) : Function.Bijective fun s => finalFn s k :=
  (addRoundKey_bijective k).comp (shiftRows_bijective.comp subBytes_bijective)

theorem roundFn_bijective (k : Block) : Function.Bijective fun s => roundFn s k :=
  (addRoundKey_bijective k).comp
    (mixColumns_bijective.comp (shiftRows_bijective.comp subBytes_bijective))

/-- Settles O30: the units one by one, and their compositions. -/
theorem transformationsAreBijections : Obligations.TransformationsAreBijections :=
  ⟨subBytes_bijective, shiftRows_bijective, mixColumns_bijective,
    fun k => ⟨addRoundKey_bijective k, roundFn_bijective k, finalFn_bijective k⟩⟩

/-! ### The block's function -/

/-- R115: any number of full rounds with fixed round keys is injective. -/
theorem foldl_roundFn_injective (rk : Vector Block 11) (rounds : List (Fin 11)) :
    Function.Injective fun s => rounds.foldl (fun s r => roundFn s rk[r]) s := by
  induction rounds with
  | nil => exact Function.injective_id
  | cons r rounds ih => exact ih.comp (roundFn_bijective rk[r]).injective

theorem afterRound_injective (rk : Vector Block 11) (n : Nat) :
    Function.Injective fun p => afterRound p rk n :=
  (foldl_roundFn_injective rk (fullRounds.take n)).comp (addRoundKey_bijective rk[0]).injective

theorem cipher_injective (rk : Vector Block 11) : Function.Injective fun p => cipher p rk :=
  (finalFn_bijective rk[10]).injective.comp (afterRound_injective rk 9)

/-- Settles O37: the round keys are functions of the key alone. -/
theorem encryptIsInjectiveInTheBlock : Obligations.EncryptIsInjectiveInTheBlock :=
  fun k => cipher_injective (expandKey k)

/-- Settles O38: the three vectors are evaluated. -/
theorem encryptGivesTheKnownCiphertexts : Obligations.EncryptGivesTheKnownCiphertexts :=
  ⟨by decide +kernel, by decide +kernel, by decide +kernel⟩

end Sys2Proof.Proofs
end

