-- ==== Sys2Proof/Proofs/KeySchedule.lean ====
section
/-! SUPPORT. The round constants, one step of the key schedule and the whole schedule (spec/43_key_schedule.md R100, R106,
R107). -/

namespace Sys2Proof.Proofs
open Sys2Proof.Machine Sys2Proof.Laws

/-! ### The round constants -/

/-- R100: each constant after the first is the `xtime` of the one before it. -/
theorem rcon_eq_map_xtime {n : Nat} (h2 : 2 ≤ n) (h10 : n ≤ 10) : rcon n = (rcon (n - 1)).map xtime := by
  obtain ⟨m, rfl⟩ : ∃ m, n = m + 1 := ⟨n - 1, by omega⟩
  have inside : rcon m = some (rconIter (m - 1)) := rcon_of_range (by omega) (by omega)
  rw [rcon_succ (by omega) (by omega) inside, Nat.add_sub_cancel, inside, Option.map_some]

/-- R100: "`rcon(0)` and `rcon(11)` are not defined". -/
theorem rcon_of_outside {n : Nat} (h : n = 0 ∨ 11 ≤ n) : rcon n = none := if_neg (by omega)

/-- Settles O31: the recurrence from `rcon_succ`; the ten values are evaluated. -/
theorem rconIsTheXtimeSequence : Obligations.RconIsTheXtimeSequence :=
  ⟨rfl, fun _ => rcon_eq_map_xtime, by decide, by decide, by decide, by decide, by decide, by decide,
    by decide, by decide, by decide, fun _ => rcon_of_outside⟩

/-! ### One step of the schedule -/

/-- R106: word 0 comes from the last word of the key before, through g. -/
theorem wordOf_nextRoundKey_zero (k : Block) (rc : Byte) :
    wordOf (nextRoundKey k rc) 0 = xorWord (gTransform (wordOf k 3) rc) (wordOf k 0) := rfl

/-- R106: every further word comes from the one before it. -/
theorem wordOf_nextRoundKey_succ (k : Block) (rc : Byte) (j : Fin 3) :
    wordOf (nextRoundKey k rc) j.succ =
      xorWord (wordOf (nextRoundKey k rc) j.castSucc) (wordOf k j.succ) := by
  fin_cases j <;> rfl

/-- R106: from byte 4 on, each byte comes from the one four places before it. -/
theorem byteAt_nextRoundKey_of_ge {k : Block} {rc : Byte} {i : Fin 16} (h : 4 ≤ i.val) :
    byteAt (nextRoundKey k rc) i =
      byteAt (nextRoundKey k rc) ⟨i.val - 4, by omega⟩ ^^^ byteAt k i := by
  have word := wordOf_nextRoundKey_succ k rc ⟨i.val / 4 - 1, by omega⟩
  have this_word : Fin.succ ⟨i.val / 4 - 1, by omega⟩ = (⟨i.val / 4, by omega⟩ : Fin 4) :=
    Fin.ext (Nat.sub_add_cancel (by omega))
  have word_before : (i.val - 4) / 4 = i.val / 4 - 1 := by omega
  have same_place : (i.val - 4) % 4 = i.val % 4 := by omega
  rw [this_word] at word
  simp only [byteAt, word, wordByte_xorWord, word_before, same_place, Fin.castSucc_mk]

/-- R106, R105: the first four bytes, through the rotation and the substitution of g. -/
theorem byteAt_nextRoundKey_first_word (k : Block) (rc : Byte) :
    byteAt (nextRoundKey k rc) 0 = subst (byteAt k 13) ^^^ rc ^^^ byteAt k 0 ∧
      byteAt (nextRoundKey k rc) 1 = subst (byteAt k 14) ^^^ byteAt k 1 ∧
      byteAt (nextRoundKey k rc) 2 = subst (byteAt k 15) ^^^ byteAt k 2 ∧
      byteAt (nextRoundKey k rc) 3 = subst (byteAt k 12) ^^^ byteAt k 3 := ⟨rfl, rfl, rfl, rfl⟩

/-- Settles O34: the chain of words, and its bytes; the examples are evaluated. -/
theorem nextRoundKeyChainsTheWords : Obligations.NextRoundKeyChainsTheWords :=
  ⟨fun k rc => ⟨wordOf_nextRoundKey_zero k rc, wordOf_nextRoundKey_succ k rc 0,
      wordOf_nextRoundKey_succ k rc 1, wordOf_nextRoundKey_succ k rc 2⟩,
    byteAt_nextRoundKey_first_word, fun _ _ _ => byteAt_nextRoundKey_of_ge, by decide, by decide⟩

/-! ### The whole schedule -/

/-- R107: `W(4r+j) = Word(RK[r], j)`. -/
theorem scheduleWord_expandKey (k : Block) {i : Fin 44} {r : Nat} {j : Fin 4} (h : i.val = 4 * r + j.val) :
    scheduleWord (expandKey k) i = wordOf (roundKey k r) j := by
  have row : i.val / 4 = r := by omega
  have column : i.val % 4 = j.val := by omega
  simp only [scheduleWord, expandKey_getElem, row, column]

theorem xorWord_comm (a b : Word) : xorWord a b = xorWord b a :=
  word_ext_bytes fun i => by rw [wordByte_xorWord, wordByte_xorWord, BitVec.xor_comm]

/-- R107: the first word of round key `r + 1` in the flat numbering. -/
theorem scheduleWord_multiple_of_four (k : Block) {i : Fin 44} {r : Nat} (h : i.val = 4 * (r + 1)) :
    scheduleWord (expandKey k) i =
      xorWord (scheduleWord (expandKey k) ⟨i.val - 4, by omega⟩)
        (gTransform (scheduleWord (expandKey k) ⟨i.val - 1, by omega⟩) (rconIter r)) := by
  rw [scheduleWord_expandKey k (r := r + 1) (j := 0) h,
    scheduleWord_expandKey k (i := ⟨i.val - 4, _⟩) (r := r) (j := 0) (by simp; omega),
    scheduleWord_expandKey k (i := ⟨i.val - 1, _⟩) (r := r) (j := 3) (by simp; omega),
    roundKey_succ, wordOf_nextRoundKey_zero, xorWord_comm]

/-- R107: the further words of round key `r + 1` in the flat numbering. -/
theorem scheduleWord_not_multiple_of_four (k : Block) {i : Fin 44} {r : Nat} {j : Fin 3}
    (h : i.val = 4 * (r + 1) + j.succ.val) :
    scheduleWord (expandKey k) i =
      xorWord (scheduleWord (expandKey k) ⟨i.val - 4, by omega⟩)
        (scheduleWord (expandKey k) ⟨i.val - 1, by omega⟩) := by
  have succ : j.succ.val = j.castSucc.val + 1 := rfl
  rw [scheduleWord_expandKey k h,
    scheduleWord_expandKey k (i := ⟨i.val - 4, _⟩) (r := r) (j := j.succ) (by simp only; omega),
    scheduleWord_expandKey k (i := ⟨i.val - 1, _⟩) (r := r + 1) (j := j.castSucc) (by simp only; omega),
    roundKey_succ, wordOf_nextRoundKey_succ, xorWord_comm]

/-- Settles O35: the entries are the round keys, and the flat numbering is split into round key and word. -/
theorem expandKeyFollowsTheRecurrence : Obligations.ExpandKeyFollowsTheRecurrence := by
  refine ⟨fun k => expandKey_getElem k 0 (by decide), fun k r h1 => ?_,
    fun k i h4 => ⟨fun hfirst => ?_, fun hfurther => ?_⟩⟩
  · have hrc : rcon r.val = some (rconIter (r.val - 1)) := rcon_of_range h1 (by omega)
    refine ⟨_, hrc, ?_⟩
    rw [expandKey_getElem, nextRoundKey_roundKey h1 (by omega) hrc]
    exact expandKey_getElem k r.val r.isLt
  · exact ⟨_, rcon_of_range (by omega) (by omega),
      scheduleWord_multiple_of_four k (r := i.val / 4 - 1) (by omega)⟩
  · exact scheduleWord_not_multiple_of_four k (r := i.val / 4 - 1) (j := ⟨i.val % 4 - 1, by omega⟩)
      (by simp only [Fin.val_succ]; omega)

end Sys2Proof.Proofs
end

