-- ==== Sys2Proof/Proofs/KeyStore.lean ====
section
/-! SUPPORT. The operations that fill the round-key store: LOAD and KEXP (spec/44_controller.md R120, R121). -/

namespace Sys2Proof.Proofs
open Sys2Proof.Machine Sys2Proof.Laws

/-- R120: both forms of LOAD complete in every state. -/
theorem exec_load {i : Instr} (h : i = .loadIdle 0 ∨ i = .loadDone 0) (s : State) :
    exec i s = .next s.acceptRequest := by
  rcases h with rfl | rfl <;> rfl

/-- R120: LOAD writes entry 0 of the round-key store and no other. -/
theorem acceptRequest_rk_of_ne (s : State) {j : Fin 11} (h : j ≠ 0) : s.acceptRequest.rk[j] = s.rk[j] := by
  have apart : (0 : Fin 11).val ≠ j.val := fun heq => h (Fin.ext heq.symm)
  exact Vector.getElem_set_ne (by decide) j.isLt apart

/-- Settles O40: what LOAD writes is `acceptRequest`. -/
theorem loadTakesKeyAndBlock : Obligations.LoadTakesKeyAndBlock :=
  ⟨rfl, rfl, fun _ s hload => ⟨_, exec_load hload s, Vector.getElem_set_self (by decide), rfl, rfl,
    rfl, rfl, fun _ => acceptRequest_rk_of_ne s, rfl, rfl, rfl, rfl, rfl⟩⟩

/-- R121: KEXP at 1 to 10, with the round index as a number. -/
theorem execKexp_ofNat (start : Bool) {n : Nat} (h1 : 1 ≤ n) (h10 : n ≤ 10) (s : State) :
    execKexp start (BitVec.ofNat 4 n) s =
      let t := s.writeRoundKey ⟨n, by omega⟩ (nextRoundKey s.rk[n - 1] s.rc)
      .next (if n ≤ 9 then (t.writeRc (xtime s.rc)).writeRnd (BitVec.ofNat 4 (n + 1))
        else (t.writeRnd 0).writePh .init) := by
  simp only [execKexp, kexpEntries_ofNat h1 h10, BitVec.ofNat_add, apply_ite Host.Outcome.next]
  rfl

/-- Settles O41: `execKexp_ofNat`; only the tenth KEXP writes `PH`, and it alone keeps `RC`. -/
theorem kexpWritesOneRoundKey : Obligations.KexpWritesOneRoundKey := by
  intro start n h1 h10 s
  refine ⟨rfl, _, execKexp_ofNat start h1 h10 s, ?_⟩
  have written (v : Block) : (s.rk.set n v)[n] = v := Vector.getElem_set_self (by omega)
  have kept (v : Block) (j : Fin 11) (hj : j.val ≠ n) : (s.rk.set n v)[j] = s.rk[j] :=
    Vector.getElem_set_ne (by omega) j.isLt hj.symm
  by_cases below : n ≤ 9
  · rw [if_pos below]
    exact ⟨written _, kept _, rfl, fun _ => ⟨rfl, rfl, rfl⟩, fun hten => by omega, rfl, rfl⟩
  · rw [if_neg below]
    exact ⟨written _, kept _, rfl, fun h => absurd h below, fun _ => ⟨rfl, rfl, rfl⟩, rfl, rfl⟩

end Sys2Proof.Proofs
end

