-- ==== Sys2Proof/Proofs/Encryptions.lean ====
section
/-! SUPPORT. Whole encryptions: the schedule of one (spec/44_controller.md R127, R130) and requests one after another with
`start` held (R132). -/

namespace Sys2Proof.Proofs
open Sys2Proof.Machine Sys2Proof.Laws

/-- Settles O50: `request_follows_schedule`. -/
theorem encryptionFollowsTheSchedule : Obligations.EncryptionFollowsTheSchedule :=
  fun _ haccept hquiet _ hk => request_follows_schedule haccept hquiet hk

/-- R18: a busy engine is not done, and `ct_out` is 0. -/
theorem outputs_of_busy {e : Engine} (hbusy : e.busy = true) : e.done = false ∧ e.ctOut = 0 := by
  have hdone : e.done = false := Bool.eq_false_iff.mpr fun h => not_done_and_busy e ⟨h, hbusy⟩
  refine ⟨hdone, ctOut_of_not_done fun hph => ?_⟩
  rw [done_eq_true_iff.mpr hph] at hdone
  cases hdone

/-- R127: after each of the first 21 edges of an encryption the engine is busy. -/
theorem request_keeps_busy {s : State} (haccept : s.acceptsRequest = true) (hquiet : s.noResetFrom 1 21)
    {n : Nat} (h1 : 1 ≤ n) (h21 : n ≤ 21) : ∃ u, runSteps n s = .next u ∧ u.busy = true := by
  obtain ⟨m, rfl⟩ : ∃ m, n = m + 1 := ⟨n - 1, by omega⟩
  obtain ⟨u, hrun, hpos, -⟩ := request_follows_schedule haccept hquiet (n := m) (by omega)
  exact ⟨u, hrun, scheduledPosition_busy h21 hpos⟩

/-- Settles O51: `request_completes`, with the key and block read back from the ports; before it the engine is busy. -/
theorem engineComputesEncrypt : Obligations.EngineComputesEncrypt := by
  intro s k p haccept hkey hblock hquiet
  have sampledKey : s.sampledKey = k := by rw [State.sampledKey, hkey, unpack_pack]
  have sampledBlock : s.sampledBlock = p := by rw [State.sampledBlock, hblock, unpack_pack]
  refine ⟨?_, fun n h1 h21 => ?_⟩
  · obtain ⟨t, hrun, hpos, hst, hrk, hrc, hct⟩ := request_completes haccept hquiet
    obtain ⟨hph, hrnd⟩ := Prod.mk.inj hpos
    rw [sampledKey, sampledBlock] at hst hct
    rw [sampledKey] at hrk
    exact ⟨t, hrun, hph, by simp [Engine.done, hph], by simp [Engine.busy, hph], hst, hct, hrk, hrc, hrnd⟩
  · obtain ⟨u, hrun, hbusy⟩ := request_keeps_busy haccept hquiet h1 h21
    obtain ⟨hdone, hct⟩ := outputs_of_busy hbusy
    exact ⟨u, hrun, hdone, hbusy, hct⟩

/-! ### With `start` held -/

/-- `start = 1` and `rst = 0` at each of the coming `n` edges. -/
def HoldsStart (n : Nat) (s : State) : Prop :=
  ∀ k, k < n → (s.sampleAt k).rst = false ∧ (s.sampleAt k).start = true

/-- R132: with `start` held a resting engine accepts a request that no reset disturbs. -/
theorem HoldsStart.accepts {s : State} (h : HoldsStart 22 s) (hlegal : s.atLegalPosition = true)
    (hrest : s.resting = true) : s.acceptsRequest = true ∧ s.noResetFrom 1 21 :=
  have now := h 0 (by decide)
  ⟨acceptsRequest_of_resting hlegal hrest now.1 now.2, fun k _ hk => (h k (Nat.lt_succ_of_le hk)).1⟩

/-- What is held for the coming edges is held still, for fewer, when some have passed. -/
theorem HoldsStart.after {m n : Nat} {s t : State} (h : HoldsStart (m + n) s)
    (hrun : runSteps m s = .next t) : HoldsStart n t := fun k hk => by
  rw [runSteps_sampleAt hrun]
  exact h (m + k) (Nat.add_lt_add_left hk m)

/-- R132: with `start` held a resting engine is at rest again after every 22 edges. -/
theorem rests_every_22_edges {m : Nat} {s : State} (hlegal : s.atLegalPosition = true)
    (hrest : s.resting = true) (h : HoldsStart (22 * m) s) :
    ∃ u, runSteps (22 * m) s = .next u ∧ u.atLegalPosition = true ∧ u.resting = true := by
  induction m with
  | zero => exact ⟨s, rfl, hlegal, hrest⟩
  | succ m ih =>
    obtain ⟨u, hrun, hlegal, hrest⟩ := ih fun k hk => h k (by omega)
    obtain ⟨haccept, hquiet⟩ := (h.after hrun).accepts hlegal hrest
    obtain ⟨t, hround, hpos, -⟩ := request_completes haccept hquiet
    obtain ⟨hph, hrnd⟩ := Prod.mk.inj hpos
    refine ⟨t, (runSteps_add (22 * m) 22 hrun).trans hround, ?_, resting_eq_true_iff.mpr (.inr hph)⟩
    simp [Engine.atLegalPosition, legalPosition, hph, hrnd]

/-- Settles O55: at edge `22m` the engine is at rest, and the encryption of the request it then accepts takes the last 22
edges. -/
theorem heldStartEncryptsEvery22Edges : Obligations.HeldStartEncryptsEvery22Edges := by
  intro m s hlegal hrest hheld
  change HoldsStart (22 * m + 22) s at hheld
  obtain ⟨u, hrun, hlegal, hrest⟩ :=
    rests_every_22_edges (m := m) hlegal hrest fun k hk => hheld k (by omega)
  obtain ⟨haccept, hquiet⟩ := (hheld.after hrun).accepts hlegal hrest
  have sample : u.sample = s.sampleAt (22 * m) := runSteps_sampleAt hrun 0
  refine ⟨?_, fun n hlower hupper => ?_⟩
  · obtain ⟨t, hround, hpos, -, -, -, hct⟩ := request_completes haccept hquiet
    refine ⟨t, (runSteps_add (22 * m) 22 hrun).trans hround,
      done_eq_true_iff.mpr (congrArg Prod.fst hpos), ?_⟩
    rw [hct, State.sampledKey, State.sampledBlock, sample]
  · obtain ⟨j, rfl⟩ : ∃ j, n = 22 * m + j := ⟨n - 22 * m, by omega⟩
    obtain ⟨v, hround, hbusy⟩ := request_keeps_busy haccept hquiet (n := j) (by omega) (by omega)
    exact ⟨v, (runSteps_add (22 * m) j hrun).trans hround, (outputs_of_busy hbusy).1⟩

end Sys2Proof.Proofs
end

