-- ==== Sys2Proof/Proofs/Waiting.lean ====
section
/-! SUPPORT. The host that waits: lines `TICK` lead a busy engine along the schedule to DONE (spec/44_controller.md R127), which
is what the boundary adapter (spec/60_exceptions.md R141) and the pseudo-line `WAITDONE` (spec/30_encoding.md R57) do. -/

namespace Sys2Proof.Proofs
open Sys2Proof.Machine Sys2Proof.Laws

/-! ### One edge driven by the host -/

/-- Log entry 1: the edge spends one placed sample. -/
theorem step_inputs {s t : State} (h : step s = .next t) : t.inputs = s.inputs.tail := by
  obtain ⟨i, u, -, hexec, rfl⟩ := step_next h
  rw [State.nextEdge_inputs, (exec_keeps_host hexec).1]

/-- R57: `TICK` is no request. -/
theorem tick_acceptsRequest (s : State) : (s.drive tickSample).acceptsRequest = false := rfl

/-- R127: `TICK` at a busy place of the schedule leads to the next one, leaves the placed stimulus, and keeps what the
registers track. -/
theorem tick_advances {n : Nat} (hn : n < 21) {s : State} (hpos : s.position = scheduledPosition n) :
    ∃ t, step (s.drive tickSample) = .next t ∧ t.position = scheduledPosition (n + 1) ∧
      t.inputs = s.inputs ∧ ∀ k p, s.toEngine.Tracks k p → t.toEngine.Tracks k p := by
  obtain ⟨t, hstep, hnext⟩ := step_scheduledPosition (s := s.drive tickSample) hn hpos rfl
  exact ⟨t, hstep, hnext, step_inputs hstep,
    fun k p htracks => (edgeLeaves_of_step hstep).tracks htracks (tick_acceptsRequest s)⟩

/-- R120: `START` at rest is accepted, leaves the placed stimulus, and the registers then track its key and block. -/
theorem start_accepted {s : State} (hlegal : s.atLegalPosition = true) (hrest : s.resting = true)
    (k p : BitVec 128) :
    ∃ t, step (s.drive (startSample k p)) = .next t ∧ t.position = scheduledPosition 0 ∧
      t.inputs = s.inputs ∧ t.toEngine.Tracks (unpack k) (unpack p) := by
  have haccept : (s.drive (startSample k p)).acceptsRequest = true :=
    acceptsRequest_of_resting hlegal hrest rfl rfl
  have htracks := acceptRequest_tracks (s.drive (startSample k p))
  simp only [State.sampledKey, State.sampledBlock, State.drive_sample, startSample] at htracks
  exact ⟨_, step_accept haccept, rfl, rfl, htracks⟩

/-! ### The boundary adapter -/

/-- What the adapter waits for holds in DONE and in no busy phase. -/
structure AwaitsDone (stop : Engine → Bool) : Prop where
  busy : ∀ {e : Engine}, e.busy = true → stop e = false
  done : ∀ {e : Engine}, e.ph = .done → stop e = true

theorem awaitsDone_done : AwaitsDone Engine.done := ⟨fun h => (outputs_of_busy h).1, done_eq_true_iff.mpr⟩

theorem awaitsDone_resting : AwaitsDone Engine.resting where
  busy h := by
    rcases busy_eq_true_iff.mp h with hph | hph | hph | hph <;> simp [Engine.resting, hph]
  done h := resting_eq_true_iff.mpr (.inr h)

theorem tickUntil_of_stop {stop : Engine → Bool} {s : State} (n : Nat) (h : stop s.toEngine = true) :
    tickUntil stop n s = .next s := by
  cases n <;> simp [tickUntil, h]

theorem tickUntil_succ {stop : Engine → Bool} {s t : State} (n : Nat) (h : stop s.toEngine = false)
    (hstep : step (s.drive tickSample) = .next t) : tickUntil stop (n + 1) s = tickUntil stop n t := by
  simp [tickUntil, h, hstep]

/-- R141: from `m` places before DONE the waiting ends in DONE, if it may last `m` edges. -/
theorem tickUntil_reaches_done {stop : Engine → Bool} (hstop : AwaitsDone stop) {m : Nat} (hm : m ≤ 21)
    {n : Nat} (hmn : m ≤ n) {s : State} (hpos : s.position = scheduledPosition (21 - m)) :
    ∃ t, tickUntil stop n s = .next t ∧ t.position = (.done, 0) ∧ t.inputs = s.inputs ∧
      ∀ k p, s.toEngine.Tracks k p → t.toEngine.Tracks k p := by
  induction m generalizing n s with
  | zero =>
    have hdone : s.ph = .done := congrArg Prod.fst hpos
    exact ⟨s, tickUntil_of_stop n (hstop.done hdone), hpos, rfl, fun _ _ h => h⟩
  | succ m ih =>
    obtain ⟨n, rfl⟩ : ∃ n', n = n' + 1 := ⟨n - 1, by omega⟩
    obtain ⟨u, hstep, hnext, hinputs, htracks⟩ := tick_advances (by omega) hpos
    have place : 21 - (m + 1) + 1 = 21 - m := by omega
    obtain ⟨t, hwait, hend, hinputs', htracks'⟩ :=
      ih (by omega) (Nat.le_of_succ_le_succ hmn) (place ▸ hnext)
    have hbusy : stop s.toEngine = false := hstop.busy (scheduledPosition_busy (by omega) hpos)
    exact ⟨t, (tickUntil_succ n hbusy hstep).trans hwait, hend, hinputs'.trans hinputs,
      fun k p h => htracks' k p (htracks k p h)⟩

/-- R16, R127: a busy position is 1 to 21 places before DONE. -/
theorem exists_places_before_done {e : Engine} (hlegal : e.atLegalPosition = true) (hbusy : e.busy = true) :
    ∃ m, 1 ≤ m ∧ m ≤ 21 ∧ e.position = scheduledPosition (21 - m) := by
  obtain ⟨n, hn, hpos⟩ := exists_scheduledPosition hlegal hbusy
  have place : 21 - (21 - n) = n := by omega
  exact ⟨21 - n, by omega, by omega, place.symm ▸ hpos⟩

/-- R141: from any legal position the adapter finds the engine at rest within 21 edges. -/
theorem tickUntil_resting {s : State} (hlegal : s.atLegalPosition = true) :
    ∃ t, tickUntil Engine.resting 21 s = .next t ∧ t.atLegalPosition = true ∧ t.resting = true ∧
      t.inputs = s.inputs := by
  cases hrest : s.resting with
  | true => exact ⟨s, tickUntil_of_stop 21 hrest, hlegal, hrest, rfl⟩
  | false =>
    obtain ⟨m, -, hm, hpos⟩ := exists_places_before_done hlegal (busy_of_not_resting hlegal hrest)
    obtain ⟨t, hwait, hend, hinputs, -⟩ := tickUntil_reaches_done awaitsDone_resting hm hm hpos
    obtain ⟨hph, hrnd⟩ := Prod.mk.inj hend
    exact ⟨t, hwait, by simp [Engine.atLegalPosition, legalPosition, hph, hrnd],
      awaitsDone_resting.done hph, hinputs⟩

/-- R141: a request presented at rest ends in DONE with the ciphertext on `ct_out`. -/
theorem submitRequest_completes {s : State} (hlegal : s.atLegalPosition = true) (hrest : s.resting = true)
    (k p : Block) :
    ∃ t, submitRequest k p s = .next t ∧ t.done = true ∧ t.inputs = s.inputs ∧
      t.ctOut = pack (encrypt k p) := by
  obtain ⟨u, hstep, hpos, hinputs, htracks⟩ := start_accepted hlegal hrest (pack k) (pack p)
  obtain ⟨t, hwait, hend, hinputs', hkept⟩ :=
    tickUntil_reaches_done awaitsDone_done (Nat.le_refl 21) (Nat.le_refl 21) hpos
  have hph : t.ph = .done := congrArg Prod.fst hend
  have hst : t.st = encrypt k p := by
    rw [(hkept _ _ htracks).finished hph, unpack_pack, unpack_pack]
  refine ⟨t, ?_, done_eq_true_iff.mpr hph, hinputs'.trans hinputs, by rw [ctOut_of_done hph, hst]⟩
  rw [submitRequest, hstep]
  exact hwait

/-- Settles O58: the check passes, the engine comes to rest, and the request completes. -/
theorem adapterReturnsTheCiphertext : Obligations.AdapterReturnsTheCiphertext := by
  intro key plaintext s hkey hplain hlegal
  have checked : boundaryCheck key plaintext = .ok (blockOfList key, blockOfList plaintext) :=
    boundaryCheck_ok.mpr ⟨hkey, hplain, rfl⟩
  obtain ⟨u, hwait, hlegal', hrest, hinputs⟩ := tickUntil_resting hlegal
  obtain ⟨t, hsubmit, hdone, hinputs', hct⟩ :=
    submitRequest_completes hlegal' hrest (blockOfList key) (blockOfList plaintext)
  refine ⟨t, ?_, hdone, hinputs'.trans hinputs, hct, ?_⟩
  · simp only [adapterCall, checked, hwait, hsubmit]
  · simp only [encryptBytes, checked, hct, unpack_pack]

/-! ### WAITDONE -/

/-- R57: from `m` places before DONE the waiting takes `m` lines, if it may take as many. -/
theorem ticksToDone_scheduledPosition {m : Nat} (hm : m ≤ 21) {n : Nat} (hmn : m ≤ n) {s : State}
    (hpos : s.position = scheduledPosition (21 - m)) : ticksToDone n s = some m := by
  induction m generalizing n s with
  | zero => exact ticksToDone_of_done n (done_eq_true_iff.mpr (congrArg Prod.fst hpos))
  | succ m ih =>
    obtain ⟨n, rfl⟩ : ∃ n', n = n' + 1 := ⟨n - 1, by omega⟩
    obtain ⟨u, hstep, hnext, -, -⟩ := tick_advances (by omega) hpos
    have place : 21 - (m + 1) + 1 = 21 - m := by omega
    have hbusy : s.busy = true := scheduledPosition_busy (by omega) hpos
    rw [ticksToDone_succ n (outputs_of_busy hbusy).1 hstep,
      ih (by omega) (Nat.le_of_succ_le_succ hmn) (place ▸ hnext), Option.map_some]

/-- R57: a program that is one `WAITDONE` is the lines it expands to. -/
theorem runProgram_waitDone {s t : State} {lines : List Line} (hlines : waitDoneLines s = some lines)
    (hrun : runLines lines s = some t) : runProgram [.waitDone] s = some t := by
  simp only [runProgram, expandLine, hlines, hrun]

/-- R57: `WAITDONE` at a busy position. -/
theorem waitDone_of_busy {s : State} (hlegal : s.atLegalPosition = true) (hbusy : s.busy = true) :
    ∃ k t, 1 ≤ k ∧ k ≤ 21 ∧ waitDoneLines s = some (tickLines k) ∧
      runProgram [.waitDone] s = some t ∧ runLines (tickLines k) s = some t ∧ t.done = true ∧
      ∀ j, j < k → ∃ u, runLines (tickLines j) s = some u ∧ u.done = false := by
  obtain ⟨m, h1, h21, hpos⟩ := exists_places_before_done hlegal hbusy
  have hticks : ticksToDone 21 s = some m := ticksToDone_scheduledPosition h21 h21 hpos
  have hlines : waitDoneLines s = some (tickLines m) := by rw [waitDoneLines, hticks, Option.map_some]
  obtain ⟨-, ⟨t, hrun, hdone⟩, hbefore⟩ := ticksToDone_some hticks
  exact ⟨m, t, h1, h21, hlines, runProgram_waitDone hlines hrun, hrun, hdone, hbefore⟩

/-- R57: after an accepted `START` it is 21 lines. -/
theorem waitDone_after_start {s : State} (hlegal : s.atLegalPosition = true) (hrest : s.resting = true)
    (k p : BitVec 128) :
    ∃ t, runLines [.start k p] s = some t ∧ waitDoneLines t = some (tickLines 21) := by
  obtain ⟨t, hstep, hpos, -, -⟩ := start_accepted hlegal hrest k p
  refine ⟨t, by simp [runLines, lineSample, hstep], ?_⟩
  rw [waitDoneLines, ticksToDone_scheduledPosition (Nat.le_refl 21) (Nat.le_refl 21) hpos, Option.map_some]

/-- R119: any number of lines `TICK` leaves the engine in IDLE. -/
theorem runLines_ticks_idle (n : Nat) {s : State} (hph : s.ph = .idle) (hrnd : s.rnd = 0) :
    ∃ t, runLines (tickLines n) s = some t ∧ t.ph = .idle := by
  induction n generalizing s with
  | zero => exact ⟨s, rfl, hph⟩
  | succ n ih =>
    have hstep := step_resting (s := s.drive tickSample) hrnd rfl (.inl hph) rfl
    obtain ⟨t, hrun, hend⟩ := ih (s := (s.drive tickSample).nextEdge) hph hrnd
    exact ⟨t, (runLines_tick (tickLines n) hstep).trans hrun, hend⟩

/-- Log entry 13: what `WAITDONE` expands to leads to `done = 1`, so in IDLE there is no expansion. -/
theorem waitDoneLines_idle {s : State} (hph : s.ph = .idle) (hrnd : s.rnd = 0) : waitDoneLines s = none := by
  cases hticks : ticksToDone 21 s with
  | none => rw [waitDoneLines, hticks, Option.map_none]
  | some k =>
    obtain ⟨-, ⟨t, hrun, hdone⟩, -⟩ := ticksToDone_some hticks
    obtain ⟨u, hrun', hidle⟩ := runLines_ticks_idle k hph hrnd
    cases hrun.symm.trans hrun'
    simp [Engine.done, hidle] at hdone

/-- Settles O59: the four cases one by one. -/
theorem waitDoneTicksUntilDone : Obligations.WaitDoneTicksUntilDone := by
  refine ⟨fun s hdone => ?_, fun _ => waitDone_of_busy,
    fun _ k p hlegal hrest => waitDone_after_start hlegal hrest k p, fun s hph hrnd => ⟨waitDoneLines_idle hph hrnd, fun n => ?_⟩⟩
  · rw [waitDoneLines, ticksToDone_of_done 21 (done_eq_true_iff.mpr hdone), Option.map_some, tickLines_zero]
  · obtain ⟨t, hrun, hidle⟩ := runLines_ticks_idle n hph hrnd
    exact ⟨t, hrun, by simp [Engine.done, hidle]⟩

end Sys2Proof.Proofs
end
